-- ==== Sys2Proof/Word.lean ====
section
/-! DEFINITION. The values of CA-CORE: `u8` values and register indices (spec/00_scope.md R7, R11). -/

namespace Sys2Proof

/-- A `u8`: every register, memory cell, PC, FL value, operand byte and ALU result (R11). -/
abbrev Byte := BitVec 8

/-- The index of a general register, 0 to 7 (R7: `NREG` = 8). -/
abbrev Reg := Fin 8

/-- `SP_INDEX`: register 7 is the stack pointer (R7, spec/10_state.md R21). -/
abbrev spIndex : Reg := 7

/-- `trunc8(v) = v mod 256` (R11): arithmetic is on unbounded naturals and narrowed once. -/
def trunc8 (n : Nat) : Byte := BitVec.ofNat 8 n

end Sys2Proof
end

