-- ==== Sys2Proof/Config.lean ====
section
/-! DEFINITION. The three implementation parameters the spec leaves to the machine (spec/00_scope.md R8 to R10,
spec/92_eei_decisions.md "Parameters left open"), and the values this hardware takes. -/

namespace Sys2Proof

/-- `ILLEGAL_OPCODE_MODE` (R10): what fetching an opcode with no defined behaviour does. -/
inductive IllegalOpcodeMode where
  /-- the hardened behaviour: stop with `IllegalInstruction` -/
  | fault
  /-- the reference behaviour: the step changes nothing, for ever -/
  | stall
deriving DecidableEq, Repr

/-- What one machine fixes. -/
structure Config where
  /-- `SP_RESET` (R8): the value of R7 after reset -/
  spReset : Byte
  /-- `EXT_ALU` (R9): whether the eight ext opcodes decode -/
  extAlu : Bool
  /-- `ILLEGAL_OPCODE_MODE` (R10) -/
  illegalOpcodeMode : IllegalOpcodeMode
deriving DecidableEq, Repr

/-- This hardware (R8, R9, R10): `SP_RESET = 0xF4`, `EXT_ALU = true`, `ILLEGAL_OPCODE_MODE = Fault`. -/
def Config.hardware : Config where
  spReset := 0xF4
  extAlu := true
  illegalOpcodeMode := .fault

end Sys2Proof
end

