-- ==== Sys2Proof/Syntax.lean ====
section
/-! DEFINITION. The instructions of CA-CORE, one constructor per row of spec/opcode_table.json
(spec/30_encoding.md R86), in the table's order. -/

namespace Sys2Proof

/-- An instruction with its operands. A register operand is an index 0 to 7: a byte above 7 names no register and
never becomes an instruction (R85; the decoder answers RegisterOutOfRange for it). `imm` is the whole operand byte
of LDI (R84). -/
inductive Instr where
  /-- halt the core (R118) -/
  | hlt
  /-- load an immediate (R130) -/
  | ldi (rA : Reg) (imm : Byte)
  /-- emit a register on the output channel (R131) -/
  | prn (rA : Reg)
  /-- add modulo 256 (R144) -/
  | add (rA rB : Reg)
  /-- subtract modulo 256 (R146, ext) -/
  | sub (rA rB : Reg)
  /-- multiply modulo 256 (R145) -/
  | mul (rA rB : Reg)
  /-- unsigned quotient (R147, ext) -/
  | div (rA rB : Reg)
  /-- compare for equality (R200) -/
  | cmp (rA rB : Reg)
  /-- bitwise AND (R148, ext) -/
  | and (rA rB : Reg)
  /-- bitwise inclusive OR (R149, ext) -/
  | or (rA rB : Reg)
  /-- bitwise exclusive OR (R150, ext) -/
  | xor (rA rB : Reg)
  /-- logical shift left (R152, ext) -/
  | shl (rA rB : Reg)
  /-- logical shift right (R153, ext) -/
  | shr (rA rB : Reg)
  /-- bitwise complement (R151, ext) -/
  | not (rA : Reg)
  /-- push a register (R181) -/
  | push (rA : Reg)
  /-- pop into a register (R182) -/
  | pop (rA : Reg)
  /-- call the subroutine whose address is in a register (R190) -/
  | call (rA : Reg)
  /-- return from a subroutine (R191) -/
  | ret
  /-- jump to the address in a register (R202) -/
  | jmp (rA : Reg)
  /-- jump if equal (R203) -/
  | jeq (rA : Reg)
  /-- jump if not equal (R204) -/
  | jne (rA : Reg)
deriving DecidableEq, Repr

end Sys2Proof
end

