-- ==== Sys2Proof/WellFormed.lean ====
section
/-! DEFINITION. Which instructions a machine has. Register operands are in range by their type, so the one check
left is the instruction's group: the ext group exists only when `EXT_ALU = true` (spec/00_scope.md R9,
spec/30_encoding.md R86, R90). -/

namespace Sys2Proof

/-- The instruction belongs to group `ext` of R86. -/
def Instr.isExt (i : Instr) : Bool :=
  match i with
  | .sub _ _ | .div _ _ | .and _ _ | .or _ _ | .xor _ _ | .shl _ _ | .shr _ _ | .not _ => true
  | .hlt | .ldi _ _ | .prn _ | .add _ _ | .mul _ _ | .cmp _ _ | .push _ | .pop _ | .call _ | .ret | .jmp _ | .jeq _
  | .jne _ => false

/-- The instruction is one the machine `cfg` decodes: base group always, ext group when `EXT_ALU = true` (R9). -/
def Instr.wellFormed (cfg : Config) (i : Instr) : Bool :=
  cfg.extAlu || !i.isExt

end Sys2Proof
end

