-- ==== Sys2Proof/Decode.lean ====
section
/-! DEFINITION. The opcode map as one table, the decoder (total on any bytes, rejecting by name) and the encoder,
both written over that table (spec/30_encoding.md R80 to R92, spec/40_machine_control.md R112). -/

namespace Sys2Proof

/-- The operations the decoder knows: R140's and R89's closed enumeration, one per row of R86. -/
inductive Op where
  | hlt | ldi | prn | add | sub | mul | div | cmp | and | or | xor | shl | shr | not
  | push | pop | call | ret | jmp | jeq | jne
deriving DecidableEq, Repr

/-- The four formats of R82. -/
inductive Format where
  /-- opcode alone -/
  | f0
  /-- opcode, register -/
  | f1r
  /-- opcode, register, register -/
  | f2rr
  /-- opcode, register, immediate -/
  | f2ri
deriving DecidableEq, Repr

/-- One row of the opcode map R86. -/
structure OpRow where
  opcode : Byte
  format : Format
  /-- group `ext`: decodes only when `EXT_ALU = true` -/
  ext : Bool
deriving DecidableEq, Repr

/-- THE opcode map (R86): the only place an opcode value stands, so that a corrected value is a one-row change
(R87). UNVERIFIED: only HLT, LDI and PRN have their value from the source (assumption 6). -/
def Op.row (o : Op) : OpRow :=
  match o with
  | .hlt => ⟨0x01, .f0, false⟩
  | .ldi => ⟨0x82, .f2ri, false⟩
  | .prn => ⟨0x47, .f1r, false⟩
  | .mul => ⟨0xA2, .f2rr, false⟩
  | .add => ⟨0xA0, .f2rr, false⟩
  | .push => ⟨0x45, .f1r, false⟩
  | .pop => ⟨0x46, .f1r, false⟩
  | .call => ⟨0x50, .f1r, false⟩
  | .ret => ⟨0x11, .f0, false⟩
  | .cmp => ⟨0xA7, .f2rr, false⟩
  | .jmp => ⟨0x54, .f1r, false⟩
  | .jeq => ⟨0x55, .f1r, false⟩
  | .jne => ⟨0x56, .f1r, false⟩
  | .sub => ⟨0xA1, .f2rr, true⟩
  | .div => ⟨0xA3, .f2rr, true⟩
  | .and => ⟨0xA8, .f2rr, true⟩
  | .or => ⟨0xAA, .f2rr, true⟩
  | .xor => ⟨0xAB, .f2rr, true⟩
  | .not => ⟨0x69, .f1r, true⟩
  | .shl => ⟨0xAC, .f2rr, true⟩
  | .shr => ⟨0xAD, .f2rr, true⟩

/-- The rows of the map, in R86's order. -/
def Op.all : List Op :=
  [.hlt, .ldi, .prn, .mul, .add, .push, .pop, .call, .ret, .cmp, .jmp, .jeq, .jne,
   .sub, .div, .and, .or, .xor, .not, .shl, .shr]

/-- The opcode byte of an operation. -/
def Op.opcode (o : Op) : Byte := o.row.opcode

/-- How many operand bytes a format has (R80, R82). -/
def Format.operandCount (f : Format) : Nat :=
  match f with
  | .f0 => 0
  | .f1r => 1
  | .f2rr => 2
  | .f2ri => 2

/-- `operand_count(d)`: fixed per opcode, taken from the map (R81). -/
def Op.operandCount (o : Op) : Nat := o.row.format.operandCount

/-- The operation is in a group that `cfg` enables (R86, R9). -/
def Op.enabled (cfg : Config) (o : Op) : Bool := cfg.extAlu || !o.row.ext

/-- What `decode(op)` answers for one opcode byte (R89). -/
inductive OpcodeClass where
  | knownOp (o : Op)
  | unknownOp (op : Byte)
deriving DecidableEq, Repr

/-- `decode(op)` (R89): total on all 256 byte values, by equality of the whole byte. -/
def decodeOpcode (cfg : Config) (op : Byte) : OpcodeClass :=
  match Op.all.find? (fun o => o.opcode == op && o.enabled cfg) with
  | some o => .knownOp o
  | none => .unknownOp op

/-- What decoding an instruction's bytes answers: the instruction, or by name the fault that decode raises
(R112). -/
inductive Decoded where
  | instr (i : Instr)
  /-- `UnknownOp(op)` (R90) -/
  | illegalInstruction (op : Byte)
  /-- a register operand byte `b` above 7 (R85) -/
  | registerOutOfRange (op b : Byte)
deriving DecidableEq, Repr

/-- The register a register operand byte names: the whole byte, legal only when at most 7 (R85). -/
def registerOperand (b : Byte) : Option Reg :=
  if h : b.toNat < 8 then some ⟨b.toNat, h⟩ else none

/-- Format F1R: `b1` is checked and named (R82, R85). -/
def decodeF1R (op b1 : Byte) (mk : Reg → Instr) : Decoded :=
  match registerOperand b1 with
  | some rA => .instr (mk rA)
  | none => .registerOutOfRange op b1

/-- Format F2RR: `b1` is checked first, then `b2` (R112 part 4, R227). -/
def decodeF2RR (op b1 b2 : Byte) (mk : Reg → Reg → Instr) : Decoded :=
  match registerOperand b1 with
  | some rA =>
    match registerOperand b2 with
    | some rB => .instr (mk rA rB)
    | none => .registerOutOfRange op b2
  | none => .registerOutOfRange op b1

/-- Format F2RI: `b1` is a register, `b2` an immediate that is never checked (R84, R112 part 4). -/
def decodeF2RI (op b1 b2 : Byte) (mk : Reg → Byte → Instr) : Decoded :=
  match registerOperand b1 with
  | some rA => .instr (mk rA b2)
  | none => .registerOutOfRange op b1

/-- R112 parts 3 and 4 for a known operation: its operand bytes become operands. A byte the format does not have is
not looked at. -/
def decodeOperands (o : Op) (op b1 b2 : Byte) : Decoded :=
  match o with
  | .hlt => .instr .hlt
  | .ret => .instr .ret
  | .ldi => decodeF2RI op b1 b2 .ldi
  | .prn => decodeF1R op b1 .prn
  | .push => decodeF1R op b1 .push
  | .pop => decodeF1R op b1 .pop
  | .call => decodeF1R op b1 .call
  | .jmp => decodeF1R op b1 .jmp
  | .jeq => decodeF1R op b1 .jeq
  | .jne => decodeF1R op b1 .jne
  | .not => decodeF1R op b1 .not
  | .add => decodeF2RR op b1 b2 .add
  | .sub => decodeF2RR op b1 b2 .sub
  | .mul => decodeF2RR op b1 b2 .mul
  | .div => decodeF2RR op b1 b2 .div
  | .cmp => decodeF2RR op b1 b2 .cmp
  | .and => decodeF2RR op b1 b2 .and
  | .or => decodeF2RR op b1 b2 .or
  | .xor => decodeF2RR op b1 b2 .xor
  | .shl => decodeF2RR op b1 b2 .shl
  | .shr => decodeF2RR op b1 b2 .shr

/-- The decoder on an opcode byte and the two bytes after it (R112). -/
def decode (cfg : Config) (op b1 b2 : Byte) : Decoded :=
  match decodeOpcode cfg op with
  | .knownOp o => decodeOperands o op b1 b2
  | .unknownOp u => .illegalInstruction u

/-- The decoder on a byte sequence; a byte past its end reads as 0, and bytes past the instruction are not looked
at. -/
def decodeBytes (cfg : Config) (bs : List Byte) : Decoded :=
  decode cfg (bs.getD 0 0) (bs.getD 1 0) (bs.getD 2 0)

/-- The operation of an instruction. -/
def Instr.op (i : Instr) : Op :=
  match i with
  | .hlt => .hlt
  | .ldi _ _ => .ldi
  | .prn _ => .prn
  | .add _ _ => .add
  | .sub _ _ => .sub
  | .mul _ _ => .mul
  | .div _ _ => .div
  | .cmp _ _ => .cmp
  | .and _ _ => .and
  | .or _ _ => .or
  | .xor _ _ => .xor
  | .shl _ _ => .shl
  | .shr _ _ => .shr
  | .not _ => .not
  | .push _ => .push
  | .pop _ => .pop
  | .call _ => .call
  | .ret => .ret
  | .jmp _ => .jmp
  | .jeq _ => .jeq
  | .jne _ => .jne

/-- The operand byte that names a register (R85). -/
def registerByte (r : Reg) : Byte := BitVec.ofNat 8 r.val

/-- The operand bytes of an instruction, `b1` first (R82). -/
def Instr.operandBytes (i : Instr) : List Byte :=
  match i with
  | .hlt | .ret => []
  | .ldi rA imm => [registerByte rA, imm]
  | .prn rA | .not rA | .push rA | .pop rA | .call rA | .jmp rA | .jeq rA | .jne rA => [registerByte rA]
  | .add rA rB | .sub rA rB | .mul rA rB | .div rA rB | .cmp rA rB | .and rA rB | .or rA rB | .xor rA rB
  | .shl rA rB | .shr rA rB => [registerByte rA, registerByte rB]

/-- The bytes of an instruction at ascending addresses: opcode, `b1`, `b2` (R80, R82). -/
def encode (i : Instr) : List Byte := i.op.opcode :: i.operandBytes

/-- `len = 1 + operand_count` (spec/00_scope.md R13). -/
def Instr.len (i : Instr) : Nat := 1 + i.op.operandCount

/-- Byte `k` of a table word: bit 0 of the word is bit 0 of the first byte; bits from `nbits` on are 0. -/
def tableByte (nbits w k : Nat) : Byte := BitVec.ofNat 8 ((w % 2 ^ nbits) / 256 ^ k)

/-- The instruction this hardware's decoder reads from a table word's bytes. -/
def decodeTableWord (nbits w : Nat) : Option Instr :=
  match decode Config.hardware (tableByte nbits w 0) (tableByte nbits w 1) (tableByte nbits w 2) with
  | .instr i => some i
  | .illegalInstruction _ => none
  | .registerOutOfRange _ _ => none

end Sys2Proof
end

