-- ==== Sys2Proof/Machine/State.lean ====
section
/-! DEFINITION. Every piece of state the spec gives CA-CORE (spec/10_state.md), the reasons a step can stop, and the
machine after reset (spec/70_reset_and_hazards.md R250). -/

namespace Sys2Proof.Machine

/-- Memory as the cells that do not hold 0, by rising address (the canonical form is `Memory.wf` in
Machine/Ops.lean). -/
abbrev Memory := List Host.Cell

/-- The run-state register's four values (spec/10_state.md R32). -/
inductive RunState where
  | idle
  | running
  | halted
  | faulted
deriving DecidableEq, Repr

/-- The fault causes of spec/60_exceptions.md R220. The last two are reserved names that nothing raises (R225,
R226). -/
inductive Cause where
  | illegalInstruction
  | registerOutOfRange
  | divisionByZero
  | addressOutOfRange
  | unsupportedOperation
deriving DecidableEq, Repr

/-- The fault record (R33). -/
structure FaultRecord where
  cause : Cause
  /-- the address of the faulting instruction's opcode -/
  pc : Byte
  /-- the opcode byte fetched there -/
  opcode : Byte
  /-- the offending operand byte for RegisterOutOfRange, 0 otherwise -/
  detail : Byte
deriving DecidableEq, Repr

/-- The state of CA-CORE (spec/10_state.md, summary table). -/
structure State where
  /-- `x[0..7]`; `x[7]` is SP (R20, R21) -/
  regs : Vector Byte 8
  /-- the program counter (R25) -/
  pc : Byte
  /-- the flags register, bits `00000LGE` (R28) -/
  fl : Byte
  /-- `mem[0..255]` (R34) -/
  mem : Memory
  /-- the run-state register (R32) -/
  run : RunState
  /-- the fault record, or none (R33) -/
  fault : Option FaultRecord
  /-- the output channel, oldest value first (R35) -/
  out : List Byte
deriving DecidableEq, Repr

/-- Why a step stops. The core's own faults (R220) are no reasons here: their entry is a next state in which `run` is
Faulted (R224). -/
inductive Fault where
  /-- Raised by `step` alone, in a state whose `run` is not Running: "In states Idle, Halted and Faulted the core has
  no step" (spec/40_machine_control.md R110). Safe: the model stops where the spec has no step. -/
  | noStep (run : RunState)
deriving DecidableEq, Repr

/-- What the model gives no meaning to. No instruction and no step answers one of these while every arm of exec has
its meaning; the host operations answer the others. -/
inductive Refusal where
  /-- An instruction that has no meaning yet, raised by its arm of exec alone. Safe: the model stops. -/
  | notModelled (mnemonic : String)
  /-- Raised by the host operation load outside Idle, which R239 does not allow. Safe: the model stops. -/
  | loadOutsideIdle (run : RunState)
  /-- Raised by the host operation run outside Idle: "A model refuses it" (R237). Safe: the model stops. -/
  | runOutsideIdle (run : RunState)
  /-- Raised by the host's step bound outside Running, where R237 does not list it. Safe: the model stops. -/
  | stopOutsideRunning (run : RunState)
deriving DecidableEq, Repr

/-- The state after host reset of a machine with parameters `cfg` (R238, R250): memory all 0 (nothing listed),
`x[0..6] = 0`, `x[7] = SP_RESET`, `pc = 0`, `fl = 0`, `run = Idle`, no fault, no output. -/
def State.resetWith (cfg : Config) : State where
  regs := #v[0, 0, 0, 0, 0, 0, 0, cfg.spReset]
  pc := 0
  fl := 0
  mem := []
  run := .idle
  fault := none
  out := []

/-- This hardware right after reset (R250). -/
def State.reset : State := State.resetWith Config.hardware

end Sys2Proof.Machine
end

