-- ==== Sys2Proof/Machine/Ops.lean ====
section
/-! DEFINITION. The named operations over memory, registers, PC, output and run state, and the one shared operation
that takes a fault (spec/00_scope.md R12, spec/20_memory.md R52, spec/60_exceptions.md R224). There is no return from a
fault: spec/60_exceptions.md R228 gives none, only the host's reset (Machine/HostOps.lean). -/

namespace Sys2Proof.Machine

/-- What an address that is not listed reads as: memory after reset is all 0 (spec/10_state.md R34). -/
def Memory.unlisted : Byte := 0

/-- The cell at address `a` (spec/20_memory.md R51). -/
def Memory.read (m : Memory) (a : Nat) : Byte :=
  match m with
  | [] => Memory.unlisted
  | (k, v) :: rest => if k = a then v else Memory.read rest a

/-- Memory with nothing listed at address `a`. -/
def Memory.erase (m : Memory) (a : Nat) : Memory :=
  match m with
  | [] => []
  | (k, w) :: rest => if k = a then Memory.erase rest a else (k, w) :: Memory.erase rest a

/-- Memory with the cell `(a, v)` listed before the first higher address. -/
def Memory.insert (m : Memory) (a : Nat) (v : Byte) : Memory :=
  match m with
  | [] => [(a, v)]
  | (k, w) :: rest => if k < a then (k, w) :: Memory.insert rest a v else (a, v) :: (k, w) :: rest

/-- Memory with the value `v` in cell `a` (R52), keeping the canonical form: what an unlisted address reads as is not
listed. -/
def Memory.write (m : Memory) (a : Nat) (v : Byte) : Memory :=
  if v = Memory.unlisted then Memory.erase m a else Memory.insert (Memory.erase m a) a v

/-- The canonical form from address `lo` on: strictly rising addresses inside the space of 256 cells (R50), and no
cell equal to what an unlisted address reads as. -/
def Memory.wfFrom (lo : Nat) (m : Memory) : Bool :=
  match m with
  | [] => true
  | (k, v) :: rest =>
    decide (lo ≤ k) && decide (k < 256) && (v != Memory.unlisted) && Memory.wfFrom (k + 1) rest

/-- The canonical form of memory. -/
def Memory.wf (m : Memory) : Bool := Memory.wfFrom 0 m

/-- `MemRead(a, 1)` (spec/00_scope.md R12). -/
def State.memRead (s : State) (a : Byte) : Byte := Memory.read s.mem a.toNat

/-- `MemWrite(a, 1, v)` (R12). -/
def State.memWrite (s : State) (a v : Byte) : State := { s with mem := Memory.write s.mem a.toNat v }

/-- `x[i]` as a read (R12). -/
def State.getReg (s : State) (r : Reg) : Byte := s.regs[r.val]

/-- `x[i] <- v` (R12): no register is hard-wired (spec/10_state.md R20). -/
def State.setReg (s : State) (r : Reg) (v : Byte) : State := { s with regs := s.regs.set r.val v }

/-- `SP`, another name for `x[7]` (R12, spec/10_state.md R21). -/
def State.sp (s : State) : Byte := s.getReg spIndex

/-- `SP <- v`. -/
def State.setSp (s : State) (v : Byte) : State := s.setReg spIndex v

/-- `pc <- target` (R12). -/
def State.setPc (s : State) (target : Byte) : State := { s with pc := target }

/-- The advance of spec/40_machine_control.md R114: `pc <- (pc + len) mod 256`. -/
def State.advance (s : State) (len : Byte) : State := s.setPc (s.pc + len)

/-- `fl <- v`. -/
def State.setFl (s : State) (v : Byte) : State := { s with fl := v }

/-- `emit(v)`: append to the output channel (R12, spec/10_state.md R35). -/
def State.emit (s : State) (v : Byte) : State := { s with out := s.out ++ [v] }

/-- `run <- r`. -/
def State.setRun (s : State) (r : RunState) : State := { s with run := r }

/-- The numeric code of a cause (spec/60_exceptions.md R220). -/
def Cause.code (c : Cause) : Byte :=
  match c with
  | .illegalInstruction => 1
  | .registerOutOfRange => 2
  | .divisionByZero => 3
  | .addressOutOfRange => 4
  | .unsupportedOperation => 5

/-- `raise F(pc, op, detail)` (spec/60_exceptions.md R224), the ONE way a fault is taken: `fault` gets the record with
the address of the faulting opcode, `run` becomes Faulted, everything else stays as the step found it. -/
def State.raise (s : State) (c : Cause) (op detail : Byte) : State :=
  { s with run := .faulted, fault := some ⟨c, s.pc, op, detail⟩ }

/-- A step on an opcode that decodes to nothing (spec/30_encoding.md R90): IllegalInstruction, or in Stall mode no
change at all. -/
def State.illegalOpcode (s : State) (cfg : Config) (op : Byte) : State :=
  match cfg.illegalOpcodeMode with
  | .fault => s.raise .illegalInstruction op 0
  | .stall => s

end Sys2Proof.Machine
end

