-- ==== Sys2Proof/Machine/Flags.lean ====
section
/-! DEFINITION. The flags register (spec/10_state.md R28 to R30): its bits, the one computation that writes it, and
the branch condition that reads it (spec/45_compare_branch.md R200, R201). -/

namespace Sys2Proof.Machine

/-- Bit 0, E: the most recent CMP found its operands equal (R28). -/
def State.flagE (s : State) : Bool := s.fl.getLsbD 0

/-- Bit 1, G: reserved, always 0 (R28, R30). -/
def State.flagG (s : State) : Bool := s.fl.getLsbD 1

/-- Bit 2, L: reserved, always 0 (R28, R30). -/
def State.flagL (s : State) : Bool := s.fl.getLsbD 2

/-- What a compare's three-way outcome leaves in FL (spec/45_compare_branch.md R200): only equality reaches it, and
"less" and "greater" both give 0 (spec/90_conflicts.md C3). -/
def compareFl (o : Ordering) : Byte :=
  match o with
  | .eq => 0x01
  | .lt => 0x00
  | .gt => 0x00

/-- `EQ = (fl[0] = 1)`, the condition of JEQ and, negated, of JNE (R201). -/
def State.branchEq (s : State) : Bool := s.flagE

end Sys2Proof.Machine
end

