-- ==== Sys2Proof/Machine/Alu.lean ====
section
/-! DEFINITION. The ALU, its ten value instructions (spec/42_alu.md) and its compare
(spec/45_compare_branch.md R200). Results are exact natural-number results narrowed once (R141). -/

namespace Sys2Proof.Machine

/-- The closed set of ALU operations (R140). -/
inductive AluOp where
  | add | sub | mul | div | cmp | and | or | xor | not | shl | shr
deriving DecidableEq, Repr

/-- What the ALU answers: a value to write, a compare's outcome, or the one arithmetic fault (R141). -/
inductive AluResult where
  | value (v : Byte)
  | compared (o : Ordering)
  | divisionByZero
deriving DecidableEq, Repr

/-- ADD: `(a + b) mod 256` (R144). -/
def aluAdd (a b : Byte) : Byte := trunc8 (a.toNat + b.toNat)

/-- SUB: `(a + 256 - b) mod 256` (R146). -/
def aluSub (a b : Byte) : Byte := trunc8 (a.toNat + 256 - b.toNat)

/-- MUL: `(a * b) mod 256` (R145). -/
def aluMul (a b : Byte) : Byte := trunc8 (a.toNat * b.toNat)

/-- DIV for a divisor that is not 0: `a div b` (R147). -/
def aluQuotient (a b : Byte) : Byte := trunc8 (a.toNat / b.toNat)

/-- SHL: `(a * 2^b) mod 256`, the count being the whole byte (R152). -/
def aluShl (a b : Byte) : Byte := trunc8 (a.toNat * 2 ^ b.toNat)

/-- SHR: `a div 2^b`, the count being the whole byte (R153). -/
def aluShr (a b : Byte) : Byte := trunc8 (a.toNat / 2 ^ b.toNat)

/-- NOT: `255 - a` (R151). -/
def aluNot (a : Byte) : Byte := trunc8 (255 - a.toNat)

/-- The ALU: a pure function of an operation and operand values (R140). NOT looks at its first operand only
(R151). -/
def alu (f : AluOp) (a b : Byte) : AluResult :=
  match f with
  | .add => .value (aluAdd a b)
  | .sub => .value (aluSub a b)
  | .mul => .value (aluMul a b)
  | .div => if b = 0 then .divisionByZero else .value (aluQuotient a b)
  | .cmp => .compared (compare a.toNat b.toNat)
  | .and => .value (a &&& b)
  | .or => .value (a ||| b)
  | .xor => .value (a ^^^ b)
  | .not => .value (aluNot a)
  | .shl => .value (aluShl a b)
  | .shr => .value (aluShr a b)

/-- What the core does with the ALU's answer for an instruction with destination `rA` and length `len`: write the
register, or FL for a compare, and advance (R143, R200); or take DivisionByZero, whose record holds DIV's opcode and
detail 0 (spec/60_exceptions.md R223). -/
def State.commitAlu (s : State) (rA : Reg) (len : Byte) (r : AluResult) : State :=
  match r with
  | .value v => (s.setReg rA v).advance len
  | .compared o => (s.setFl (compareFl o)).advance len
  | .divisionByZero => s.raise .divisionByZero (Op.opcode .div) 0

/-- The one shape of a two-operand ALU instruction (R143): both operands are read before anything is written. -/
def aluTwo (f : AluOp) (rA rB : Reg) (s : State) : State :=
  s.commitAlu rA 3 (alu f (s.getReg rA) (s.getReg rB))

/-- The shape of the one-operand ALU instruction (R151). -/
def aluOne (f : AluOp) (rA : Reg) (s : State) : State :=
  s.commitAlu rA 2 (alu f (s.getReg rA) 0)

/-- ADD (R144). -/
def execAdd (rA rB : Reg) (s : State) : Host.Outcome State Fault Refusal := .next (aluTwo .add rA rB s)

/-- SUB (R146). -/
def execSub (rA rB : Reg) (s : State) : Host.Outcome State Fault Refusal := .next (aluTwo .sub rA rB s)

/-- MUL (R145). -/
def execMul (rA rB : Reg) (s : State) : Host.Outcome State Fault Refusal := .next (aluTwo .mul rA rB s)

/-- DIV (R147): takes DivisionByZero when `x[rB] = 0`. -/
def execDiv (rA rB : Reg) (s : State) : Host.Outcome State Fault Refusal := .next (aluTwo .div rA rB s)

/-- CMP (R200): writes FL and no register. -/
def execCmp (rA rB : Reg) (s : State) : Host.Outcome State Fault Refusal := .next (aluTwo .cmp rA rB s)

/-- AND (R148). -/
def execAnd (rA rB : Reg) (s : State) : Host.Outcome State Fault Refusal := .next (aluTwo .and rA rB s)

/-- OR (R149). -/
def execOr (rA rB : Reg) (s : State) : Host.Outcome State Fault Refusal := .next (aluTwo .or rA rB s)

/-- XOR (R150). -/
def execXor (rA rB : Reg) (s : State) : Host.Outcome State Fault Refusal := .next (aluTwo .xor rA rB s)

/-- SHL (R152). -/
def execShl (rA rB : Reg) (s : State) : Host.Outcome State Fault Refusal := .next (aluTwo .shl rA rB s)

/-- SHR (R153). -/
def execShr (rA rB : Reg) (s : State) : Host.Outcome State Fault Refusal := .next (aluTwo .shr rA rB s)

/-- NOT (R151): one operand, length 2. -/
def execNot (rA : Reg) (s : State) : Host.Outcome State Fault Refusal := .next (aluOne .not rA s)

end Sys2Proof.Machine
end

