-- ==== Sys2Proof/Machine/Branch.lean ====
section
/-! DEFINITION. JMP, JEQ and JNE (spec/45_compare_branch.md). Targets are absolute, from a register (R205). -/

namespace Sys2Proof.Machine

/-- A conditional jump: `pc <- x[rA]` when taken, else `pc <- (pc + 2) mod 256` (R203, R204). -/
def branchIf (taken : Bool) (rA : Reg) (s : State) : State :=
  if taken then s.setPc (s.getReg rA) else s.advance 2

/-- JMP (R202). -/
def execJmp (rA : Reg) (s : State) : Host.Outcome State Fault Refusal := .next (s.setPc (s.getReg rA))

/-- JEQ (R203): taken when E is 1. -/
def execJeq (rA : Reg) (s : State) : Host.Outcome State Fault Refusal := .next (branchIf s.branchEq rA s)

/-- JNE (R204): taken when E is 0. -/
def execJne (rA : Reg) (s : State) : Host.Outcome State Fault Refusal := .next (branchIf (!s.branchEq) rA s)

end Sys2Proof.Machine
end

