-- ==== Sys2Proof/Machine/Operands.lean ====
section
/-! DEFINITION. Where operands come from: the instruction's own bytes (spec/00_scope.md R13,
spec/40_machine_control.md R111, R112), the return address, and the stack cells reached through SP
(spec/20_memory.md R53, spec/43_stack.md R180). Every address is modulo 256 (spec/20_memory.md R54). -/

namespace Sys2Proof.Machine

/-- `op`: the byte at `pc` (R111). -/
def State.opcodeByte (s : State) : Byte := s.memRead s.pc

/-- `b1`: the byte at `(pc + 1) mod 256` (R13). -/
def State.operandByte1 (s : State) : Byte := s.memRead (s.pc + 1)

/-- `b2`: the byte at `(pc + 2) mod 256` (R13). -/
def State.operandByte2 (s : State) : Byte := s.memRead (s.pc + 2)

/-- The address of the instruction after a CALL: `(pc + 2) mod 256` (spec/44_call_return.md R190). -/
def State.returnAddress (s : State) : Byte := s.pc + 2

/-- The cell a push writes: `(SP - 1) mod 256` (R53). -/
def State.pushAddress (s : State) : Byte := s.sp - 1

/-- The cell a pop reads: `SP` (R53). -/
def State.popAddress (s : State) : Byte := s.sp

/-- `SP <- (SP - 1) mod 256`, the first half of a push (spec/43_stack.md R180). -/
def State.decSp (s : State) : State := s.setSp s.pushAddress

/-- `SP <- (SP + 1) mod 256`, the second half of a pop (R180). -/
def State.incSp (s : State) : State := s.setSp (s.sp + 1)

/-- `MemWrite(SP, 1, v)`: the store of a push, after SP was decremented. -/
def State.storeAtSp (s : State) (v : Byte) : State := s.memWrite s.sp v

/-- `MemRead(SP, 1)`: the load of a pop, before SP is incremented. -/
def State.loadAtSp (s : State) : Byte := s.memRead s.popAddress

end Sys2Proof.Machine
end

