-- ==== Sys2Proof/Machine/CallReturn.lean ====
section
/-! DEFINITION. CALL and RET (spec/44_call_return.md). Both set PC themselves (spec/40_machine_control.md R115). -/

namespace Sys2Proof.Machine

/-- CALL (R190): push `(pc + 2) mod 256`, then `pc <- x[rA]`, read after the push (D14). -/
def execCall (rA : Reg) (s : State) : Host.Outcome State Fault Refusal :=
  let s1 := s.decSp.storeAtSp s.returnAddress
  .next (s1.setPc (s1.getReg rA))

/-- RET (R191): `pc <- MemRead(SP, 1)`, then one increment of SP (spec/90_conflicts.md C9). -/
def execRet (s : State) : Host.Outcome State Fault Refusal :=
  .next (s.setPc s.loadAtSp).incSp

end Sys2Proof.Machine
end

