-- ==== Sys2Proof/Machine/Control.lean ====
section
/-! DEFINITION. The machine-control instruction HLT (spec/40_machine_control.md section 2). -/

namespace Sys2Proof.Machine

/-- HLT (R118): `run <- Halted`, then the advance of R114 by 1. -/
def execHlt (s : State) : Host.Outcome State Fault Refusal :=
  .next ((s.setRun .halted).advance 1)

end Sys2Proof.Machine
end

