-- ==== Sys2Proof/Machine/LoadOutput.lean ====
section
/-! DEFINITION. LDI and PRN (spec/41_load_output.md). -/

namespace Sys2Proof.Machine

/-- LDI (R130): `x[rA] <- imm`, then advance by 3. -/
def execLdi (rA : Reg) (imm : Byte) (s : State) : Host.Outcome State Fault Refusal :=
  .next ((s.setReg rA imm).advance 3)

/-- PRN (R131): `emit(x[rA])`, then advance by 2. -/
def execPrn (rA : Reg) (s : State) : Host.Outcome State Fault Refusal :=
  .next ((s.emit (s.getReg rA)).advance 2)

end Sys2Proof.Machine
end

