-- ==== Sys2Proof/Machine/Stack.lean ====
section
/-! DEFINITION. PUSH and POP (spec/43_stack.md). No bounds are checked (R183). The statements run in the order
written, each read seeing earlier writes, which fixes PUSH R7 and POP R7 (spec/92_eei_decisions.md D14). -/

namespace Sys2Proof.Machine

/-- `SP <- (SP - 1) mod 256`, then `MemWrite(SP, 1, x[rA])` with `x[rA]` read after the decrement (R181). -/
def pushReg (rA : Reg) (s : State) : State :=
  let s1 := s.decSp
  s1.storeAtSp (s1.getReg rA)

/-- `x[rA] <- MemRead(SP, 1)`, then `SP <- (SP + 1) mod 256`, which for `rA = 7` increments the value just popped
(R182). -/
def popReg (rA : Reg) (s : State) : State := (s.setReg rA s.loadAtSp).incSp

/-- PUSH (R181), then advance by 2. -/
def execPush (rA : Reg) (s : State) : Host.Outcome State Fault Refusal := .next ((pushReg rA s).advance 2)

/-- POP (R182), then advance by 2. -/
def execPop (rA : Reg) (s : State) : Host.Outcome State Fault Refusal := .next ((popReg rA s).advance 2)

end Sys2Proof.Machine
end

