-- ==== Sys2Proof/Machine/Fetch.lean ====
section
/-! DEFINITION. Fetching and decoding the instruction at PC (spec/40_machine_control.md R111, R112, R116), and placing
a word where the fetch finds it. -/

namespace Sys2Proof.Machine

/-- Fetch and decode as R116 writes it: the opcode first; an operand byte only if the operation has it, else 0; then
the register checks. No state changes. -/
def State.fetchDecode (s : State) (cfg : Config) : Decoded :=
  let op := s.opcodeByte
  match decodeOpcode cfg op with
  | .unknownOp u => .illegalInstruction u
  | .knownOp o =>
    let n := o.operandCount
    let b1 := if n ≥ 1 then s.operandByte1 else 0
    let b2 := if n = 2 then s.operandByte2 else 0
    decodeOperands o op b1 b2

/-- A core that fetches this table word next: its bytes stand at `pc`, `pc + 1`, `pc + 2` (modulo 256) and the core is
Running, as the host's load and run would leave it (spec/60_exceptions.md R239, R240). -/
def State.placeWord (s : State) (nbits w : Nat) : State :=
  (((s.memWrite s.pc (tableByte nbits w 0)).memWrite (s.pc + 1) (tableByte nbits w 1)).memWrite (s.pc + 2)
    (tableByte nbits w 2)).setRun .running

end Sys2Proof.Machine
end

