-- ==== Sys2Proof/Machine/Cycle.lean ====
section
/-! DEFINITION. The one step of the core (spec/40_machine_control.md R116) for every value of the three parameters,
and the run loop that repeats it (R117). -/

namespace Sys2Proof.Machine

/-- The step of a machine with parameters `cfg` (R116). Outside Running the core has no step (R110); an illegal opcode
and an out-of-range register operand are taken as R90 and R85 say, as next states; any other bytes run their
instruction, which advances PC itself where R114 says so. -/
def stepWith (cfg : Config) (s : State) : Host.Outcome State Fault Refusal :=
  match s.run with
  | .running =>
    match s.fetchDecode cfg with
    | .instr i => exec i s
    | .illegalInstruction op => .next (s.illegalOpcode cfg op)
    | .registerOutOfRange op b => .next (s.raise .registerOutOfRange op b)
  | .idle => .fault (.noStep .idle)
  | .halted => .fault (.noStep .halted)
  | .faulted => .fault (.noStep .faulted)

/-- At most `n` steps of the run loop (R117): it stops when no step is possible, and when the host's step bound is
used up, which leaves a Running state (spec/60_exceptions.md R243). -/
def runFor (cfg : Config) (n : Nat) (s : State) : State :=
  match n with
  | 0 => s
  | k + 1 =>
    match stepWith cfg s with
    | .next t => runFor cfg k t
    | .fault _ => s
    | .refused _ => s

end Sys2Proof.Machine
end

