-- ==== Sys2Proof/Machine/Step.lean ====
section
/-! DEFINITION. The step of this hardware, and the state that runs a given word next. -/

namespace Sys2Proof.Machine

/-- The step of this hardware: R116 with the parameters of Config.hardware. -/
def step (s : State) : Host.Outcome State Fault Refusal := stepWith Config.hardware s

/-- `s` with a table word's bytes at PC and the core Running, so that the very next step runs it (assumption 4). -/
def State.withFetchWord (s : State) (nbits w : Nat) : State := s.placeWord nbits w

end Sys2Proof.Machine
end

