-- ==== Sys2Proof/Machine/HostOps.lean ====
section
/-! DEFINITION. What the host can do to the core (spec/60_exceptions.md R237 to R243): reset, load, run, stop stepping,
read the output, read state. -/

namespace Sys2Proof.Machine

/-- Host reset (R238), allowed in any state: every item at its reset value. -/
def hostReset (cfg : Config) (_s : State) : State := State.resetWith cfg

/-- What a load gives back to the host (R237, R239). -/
inductive LoadResult where
  | ok
  | malformedProgram
deriving DecidableEq, Repr

/-- `MAX_IMAGE` (spec/00_scope.md R7). -/
def maxImage : Nat := 256

/-- `MemWrite(k, 1, img[k])` for the elements of `img` in order, from address `k` on (R239). -/
def Memory.writeImage (m : Memory) (k : Nat) (img : List Byte) : Memory :=
  match img with
  | [] => m
  | b :: rest => Memory.writeImage (Memory.write m k b) (k + 1) rest

/-- Host load (R239): only in Idle; all of the image from address 0 on, or nothing. -/
def hostLoad (img : List Byte) (s : State) : Host.Outcome (State × LoadResult) Fault Refusal :=
  match s.run with
  | .idle =>
    if img.length > maxImage then .next (s, .malformedProgram)
    else .next ({ s with mem := Memory.writeImage s.mem 0 img }, .ok)
  | .running => .refused (.loadOutsideIdle .running)
  | .halted => .refused (.loadOutsideIdle .halted)
  | .faulted => .refused (.loadOutsideIdle .faulted)

/-- Host run (R240): in Idle, `run <- Running`. Elsewhere "A model refuses it" (R237). -/
def hostRun (s : State) : Host.Outcome State Fault Refusal :=
  match s.run with
  | .idle => .next (s.setRun .running)
  | .running => .refused (.runOutsideIdle .running)
  | .halted => .refused (.runOutsideIdle .halted)
  | .faulted => .refused (.runOutsideIdle .faulted)

/-- The host's step bound (R243): it stops stepping a Running core, which changes no state. -/
def hostStop (s : State) : Host.Outcome State Fault Refusal :=
  match s.run with
  | .running => .next s
  | .idle => .refused (.stopOutsideRunning .idle)
  | .halted => .refused (.stopOutsideRunning .halted)
  | .faulted => .refused (.stopOutsideRunning .faulted)

/-- What the debug read shows (R235): `pc`, `fl`, `x[0..7]`, memory, `run`, `fault`. -/
structure DebugView where
  pc : Byte
  fl : Byte
  regs : Vector Byte 8
  mem : Memory
  run : RunState
  fault : Option FaultRecord
deriving DecidableEq, Repr

/-- The host's debug read (R235). -/
def debugRead (s : State) : DebugView := ⟨s.pc, s.fl, s.regs, s.mem, s.run, s.fault⟩

/-- The host's read of the output channel (spec/10_state.md R35). -/
def hostOutput (s : State) : List Byte := s.out

/-- Everything that can happen to the core from outside, and its own step (R237, spec/10_state.md R32). -/
inductive HostAction where
  | reset
  | load (img : List Byte)
  | run
  | step
  | stop
  | debugRead
deriving DecidableEq, Repr

/-- The state an action leaves. -/
def act (cfg : Config) (a : HostAction) (s : State) : Host.Outcome State Fault Refusal :=
  match a with
  | .reset => .next (hostReset cfg s)
  | .load img =>
    match hostLoad img s with
    | .next (t, _) => .next t
    | .fault r => .fault r
    | .refused r => .refused r
  | .run => hostRun s
  | .step => stepWith cfg s
  | .stop => hostStop s
  | .debugRead => .next s

/-- The launch state of an image (spec/40_machine_control.md R119, spec/70_reset_and_hazards.md R252): reset, then load,
then run; none for an image that does not load. -/
def launch (cfg : Config) (img : List Byte) : Option State :=
  match hostLoad img (State.resetWith cfg) with
  | .next (t, .ok) =>
    match hostRun t with
    | .next u => some u
    | .fault _ => none
    | .refused _ => none
  | .next (_, .malformedProgram) => none
  | .fault _ => none
  | .refused _ => none

end Sys2Proof.Machine
end

