-- ==== Sys2Proof/Machine/HostText.lean ====
section
/-! DEFINITION. The two text formats at the core's boundary: how the host prints output values
(spec/41_load_output.md R132) and the loader's program text (spec/60_exceptions.md R241). Text is a list of
characters. -/

namespace Sys2Proof.Machine

/-- The character of a decimal digit. -/
def digitChar (d : Nat) : Char := Char.ofNat (48 + d)

/-- The decimal digits of a byte, no leading zeros, `0` for zero, at most three (R132). -/
def decimalDigits (v : Byte) : List Char :=
  let n := v.toNat
  if n ≥ 100 then [digitChar (n / 100), digitChar (n / 10 % 10), digitChar (n % 10)]
  else if n ≥ 10 then [digitChar (n / 10), digitChar (n % 10)]
  else [digitChar n]

/-- The text the host prints for the output channel: one decimal line per value (R132). -/
def renderOutput (out : List Byte) : List Char := out.flatMap (fun v => decimalDigits v ++ ['\n'])

/-- White space of a program line. DESIGN CHOICE (assumption 8): the spec does not list the characters. -/
def isBlank (c : Char) : Bool := c == ' ' || c == '\t' || c == '\r' || c == '\x0b' || c == '\x0c'

/-- The lines of a text, parted at newlines. -/
def splitLines (cs : List Char) : List (List Char) :=
  match cs with
  | [] => [[]]
  | c :: rest =>
    if c = '\n' then [] :: splitLines rest
    else
      match splitLines rest with
      | [] => [[c]]
      | l :: ls => (c :: l) :: ls

/-- Steps 1 and 2 of R241: drop the comment, strip leading and trailing white space. -/
def lineToken (line : List Char) : List Char :=
  (((line.takeWhile (· ≠ '#')).dropWhile isBlank).reverse.dropWhile isBlank).reverse

/-- The value of base-2 digits, most significant first; none if a character is no such digit. -/
def binaryValue (acc : Nat) (cs : List Char) : Option Nat :=
  match cs with
  | [] => some acc
  | c :: rest =>
    if c = '0' then binaryValue (2 * acc) rest
    else if c = '1' then binaryValue (2 * acc + 1) rest
    else none

/-- Step 4 of R241 on a token that is not empty: a base-2 number of at most 255. -/
def tokenByte (tok : List Char) : Option Byte :=
  match binaryValue 0 tok with
  | some n => if n ≤ 255 then some (trunc8 n) else none
  | none => none

/-- The image bytes of the lines, in file order; none if one token is malformed (R241). -/
def parseLines (lines : List (List Char)) : Option (List Byte) :=
  match lines with
  | [] => some []
  | l :: rest =>
    match lineToken l with
    | [] => parseLines rest
    | c :: cs =>
      match tokenByte (c :: cs), parseLines rest with
      | some b, some bs => some (b :: bs)
      | _, _ => none

/-- The image a program text stands for; none is MalformedProgram (R241). -/
def parseProgram (text : List Char) : Option (List Byte) :=
  match parseLines (splitLines text) with
  | some img => if img.length > maxImage then none else some img
  | none => none

/-- Host load of a program text: a malformed text fails the whole load and leaves memory alone (R239, R241). -/
def hostLoadText (text : List Char) (s : State) : Host.Outcome (State × LoadResult) Fault Refusal :=
  match s.run with
  | .idle =>
    match parseProgram text with
    | some img => hostLoad img s
    | none => .next (s, .malformedProgram)
  | .running => .refused (.loadOutsideIdle .running)
  | .halted => .refused (.loadOutsideIdle .halted)
  | .faulted => .refused (.loadOutsideIdle .faulted)

/-- The base-2 digits of a byte, most significant first (spec/30_encoding.md R95: 8-digit binary bytes). -/
def binaryDigits (b : Byte) : List Char :=
  [7, 6, 5, 4, 3, 2, 1, 0].map (fun k => if b.getLsbD k then '1' else '0')

/-- An image as program text, one byte a line (R95). -/
def imageText (img : List Byte) : List Char := img.flatMap (fun b => binaryDigits b ++ ['\n'])

end Sys2Proof.Machine
end

