-- ==== Sys2Proof/Machine/Asm.lean ====
section
/-! DEFINITION. The assembly syntax (spec/30_encoding.md R93), printed and read. It has no effect on the machine
(spec/92_eei_decisions.md D25); no pseudo-instruction or label exists (R94). Text is a list of characters. -/

namespace Sys2Proof.Machine

/-- The mnemonic of an operation, in capitals (R86, R93). -/
def mnemonic (o : Op) : List Char :=
  match o with
  | .hlt => ['H', 'L', 'T']
  | .ldi => ['L', 'D', 'I']
  | .prn => ['P', 'R', 'N']
  | .add => ['A', 'D', 'D']
  | .sub => ['S', 'U', 'B']
  | .mul => ['M', 'U', 'L']
  | .div => ['D', 'I', 'V']
  | .cmp => ['C', 'M', 'P']
  | .and => ['A', 'N', 'D']
  | .or => ['O', 'R']
  | .xor => ['X', 'O', 'R']
  | .shl => ['S', 'H', 'L']
  | .shr => ['S', 'H', 'R']
  | .not => ['N', 'O', 'T']
  | .push => ['P', 'U', 'S', 'H']
  | .pop => ['P', 'O', 'P']
  | .call => ['C', 'A', 'L', 'L']
  | .ret => ['R', 'E', 'T']
  | .jmp => ['J', 'M', 'P']
  | .jeq => ['J', 'E', 'Q']
  | .jne => ['J', 'N', 'E']

/-- A register, written `R0` to `R7`. -/
def regText (r : Reg) : List Char := ['R', digitChar r.val]

/-- The assembly text of an instruction: immediates in decimal, `R7` for SP (R93). -/
def asmText (i : Instr) : List Char :=
  match i with
  | .hlt | .ret => mnemonic i.op
  | .ldi rA imm => mnemonic i.op ++ [' '] ++ regText rA ++ [','] ++ decimalDigits imm
  | .prn rA | .not rA | .push rA | .pop rA | .call rA | .jmp rA | .jeq rA | .jne rA =>
    mnemonic i.op ++ [' '] ++ regText rA
  | .add rA rB | .sub rA rB | .mul rA rB | .div rA rB | .cmp rA rB | .and rA rB | .or rA rB | .xor rA rB
  | .shl rA rB | .shr rA rB => mnemonic i.op ++ [' '] ++ regText rA ++ [','] ++ regText rB

/-- The value of a digit character, letters of either case counting from 10. -/
def digitValue (c : Char) : Option Nat :=
  if '0' ≤ c && c ≤ '9' then some (c.toNat - 48)
  else if 'A' ≤ c && c ≤ 'F' then some (c.toNat - 55)
  else if 'a' ≤ c && c ≤ 'f' then some (c.toNat - 87)
  else none

/-- The value of base-`base` digits, most significant first. -/
def digitsValue (base acc : Nat) (cs : List Char) : Option Nat :=
  match cs with
  | [] => some acc
  | c :: rest =>
    match digitValue c with
    | some d => if d < base then digitsValue base (base * acc + d) rest else none
    | none => none

/-- A number of one digit or more. -/
def numberText (base : Nat) (cs : List Char) : Option Nat :=
  match cs with
  | [] => none
  | c :: rest => digitsValue base 0 (c :: rest)

/-- An immediate: decimal, or hexadecimal after `0x`, or binary after `0b`, at most 255 (R93). -/
def readImm (cs : List Char) : Option Byte :=
  let n :=
    match cs with
    | '0' :: 'x' :: rest => numberText 16 rest
    | '0' :: 'b' :: rest => numberText 2 rest
    | other => numberText 10 other
  match n with
  | some v => if v ≤ 255 then some (trunc8 v) else none
  | none => none

/-- A register: `R0` to `R7`, or `SP` for `R7` (R93), as its operand byte. -/
def readReg (cs : List Char) : Option Byte :=
  match cs with
  | ['S', 'P'] => some (registerByte spIndex)
  | ['R', d] =>
    match digitValue d with
    | some n => if n < 8 then some (trunc8 n) else none
    | none => none
  | _ => none

/-- The text before the first `sep`, and the text after it if there is one. -/
def splitAtFirst (sep : Char) (cs : List Char) : List Char × Option (List Char) :=
  match cs with
  | [] => ([], none)
  | c :: rest =>
    if c = sep then ([], some rest)
    else ((c :: (splitAtFirst sep rest).1), (splitAtFirst sep rest).2)

/-- The operand bytes that an operand text of a format stands for: the first operand written is `b1`, the second `b2`
(R93). -/
def readOperands (f : Format) (text : Option (List Char)) : Option (Byte × Byte) :=
  match f, text with
  | .f0, none => some (0, 0)
  | .f1r, some t => (readReg t).map (fun a => (a, 0))
  | .f2rr, some t =>
    match splitAtFirst ',' t with
    | (x, some y) => (readReg x).bind (fun a => (readReg y).map (fun b => (a, b)))
    | (_, none) => none
  | .f2ri, some t =>
    match splitAtFirst ',' t with
    | (x, some y) => (readReg x).bind (fun a => (readImm y).map (fun b => (a, b)))
    | (_, none) => none
  | _, _ => none

/-- The instruction an assembly text stands for. White space is one space after the mnemonic and nowhere else
(DESIGN CHOICE, assumption 8). -/
def readAsm (text : List Char) : Option Instr :=
  let (name, operands) := splitAtFirst ' ' text
  match Op.all.find? (fun o => mnemonic o == name) with
  | none => none
  | some o =>
    match readOperands o.row.format operands with
    | none => none
    | some (b1, b2) =>
      match decodeOperands o o.opcode b1 b2 with
      | .instr i => some i
      | .illegalInstruction _ => none
      | .registerOutOfRange _ _ => none

end Sys2Proof.Machine
end

