-- ==== Sys2Proof/Safety.lean ====
section
/-! DEFINITION. The words claims are made in: ends of runs, the invariant of reachable states, what a step leaves
unchanged, and which states a program cannot tell apart. -/

namespace Sys2Proof.Machine

/-- A normal end of a run (spec/40_machine_control.md R119). -/
def State.endedNormally (s : State) : Prop := s.run = .halted

/-- An abnormal end of a run, with its fault record (R119). -/
def State.endedAbnormally (s : State) : Prop := s.run = .faulted

/-- FL holds 0 or 1: G, L and bits 7:3 are 0 (spec/10_state.md R28, R30). -/
def State.flLegal (s : State) : Prop := s.fl = 0 ∨ s.fl = 1

/-- The fault record is there exactly in Faulted, and it is one that a step of the machine could have written: a
precise address and opcode, one of the three causes, and the detail its cause has (spec/10_state.md R33,
spec/60_exceptions.md R220 to R226). -/
def State.faultLegal (s : State) : Prop :=
  match s.fault with
  | none => s.run ≠ .faulted
  | some f =>
    s.run = .faulted ∧ f.pc = s.pc ∧ f.opcode = s.memRead s.pc ∧
      ((f.cause = .illegalInstruction ∧ f.detail = 0) ∨
       (f.cause = .registerOutOfRange ∧ 8 ≤ f.detail.toNat) ∨
       (f.cause = .divisionByZero ∧ f.opcode = 0xA3 ∧ f.detail = 0))

/-- The invariant of CA-CORE's reachable states. -/
structure State.Inv (s : State) : Prop where
  memory : Memory.wf s.mem = true
  flags : s.flLegal
  fault : s.faultLegal

/-- Every register but those listed is as before. -/
def regsKeptBut (rs : List Reg) (s t : State) : Prop := ∀ r, r ∉ rs → t.getReg r = s.getReg r

/-- Every byte of memory but those at the addresses listed reads as before. -/
def memKeptBut (as : List Byte) (s t : State) : Prop := ∀ a, a ∉ as → t.memRead a = s.memRead a

/-- The run-state register and the fault record are as before. -/
def runKept (s t : State) : Prop := t.run = s.run ∧ t.fault = s.fault

/-- The instruction sets PC itself (spec/40_machine_control.md R115). -/
def setsPc (i : Instr) : Bool :=
  match i with
  | .call _ | .ret | .jmp _ | .jeq _ | .jne _ => true
  | .hlt | .ldi _ _ | .prn _ | .add _ _ | .sub _ _ | .mul _ _ | .div _ _ | .cmp _ _ | .and _ _ | .or _ _ | .xor _ _
  | .shl _ _ | .shr _ _ | .not _ | .push _ | .pop _ => false

/-- `t` is `s` after the fault `c` was taken with this opcode and detail (spec/60_exceptions.md R224): the record and
Faulted, and nothing else. -/
def faultTaken (c : Cause) (op detail : Byte) (s t : State) : Prop :=
  t.run = .faulted ∧ t.fault = some ⟨c, s.pc, op, detail⟩ ∧ t.pc = s.pc ∧ t.fl = s.fl ∧ t.out = s.out ∧
    regsKeptBut [] s t ∧ memKeptBut [] s t

/-- The cells the fetch and decode of the step from `s` read (spec/20_memory.md R53): the opcode, and the operand bytes
the operation has. -/
def State.fetchSet (s : State) (cfg : Config) : List Byte :=
  match decodeOpcode cfg s.opcodeByte with
  | .unknownOp _ => [s.pc]
  | .knownOp o =>
    if o.operandCount = 2 then [s.pc, s.pc + 1, s.pc + 2]
    else if o.operandCount = 1 then [s.pc, s.pc + 1]
    else [s.pc]

/-- The cells the step from `s` reads (R53): those of its fetch, and for a POP or RET that runs the cell at SP. -/
def State.readSet (s : State) (cfg : Config) : List Byte :=
  match s.fetchDecode cfg with
  | .instr (.pop _) => s.fetchSet cfg ++ [s.sp]
  | .instr .ret => s.fetchSet cfg ++ [s.sp]
  | _ => s.fetchSet cfg

/-- The cells the step from `s` writes (R53): for a PUSH or CALL that runs, `(SP - 1) mod 256`. -/
def State.writeSet (s : State) (cfg : Config) : List Byte :=
  match s.fetchDecode cfg with
  | .instr (.push _) => [s.pushAddress]
  | .instr (.call _) => [s.pushAddress]
  | _ => []

end Sys2Proof.Machine
end

