-- ==== Sys2Proof/Certificates/Slice0/Obligations.lean ====
section
/-! DEFINITION. The statements for the provers. Every statement about an instruction says what its next state holds
and what it keeps: registers, memory as reads of single bytes, FL, output, run state and fault record. A docstring
names the rule it formalises, and, where a clause rests on a choice the spec marks as its own (a decision D<n> of
spec/92_eei_decisions.md, or general knowledge) or on one of the model's log entries, says so. -/

open Sys2Proof Sys2Proof.Machine

/-! ### Encoding and decoding -/

/-- Words written out from spec/30_encoding.md R82, R86 (the byte values other than HLT, LDI and PRN are the spec's
general knowledge, D2) decode to the instructions they stand for, and an out-of-range register byte or an opcode of
R91 to none. -/
def Obligations.WrittenWordsDecode : Prop :=
  decodeTableWord 8 0x01 = some .hlt ∧
  decodeTableWord 24 0x080082 = some (.ldi 0 8) ∧
  decodeTableWord 16 0x0047 = some (.prn 0) ∧
  decodeTableWord 24 0x0201A0 = some (.add 1 2) ∧
  decodeTableWord 24 0x0700A3 = some (.div 0 7) ∧
  decodeTableWord 16 0x0269 = some (.not 2) ∧
  decodeTableWord 16 0x0745 = some (.push 7) ∧
  decodeTableWord 8 0x11 = some .ret ∧
  decodeTableWord 24 0x0305A7 = some (.cmp 5 3) ∧
  decodeTableWord 16 0x0656 = some (.jne 6) ∧
  decodeTableWord 24 0x010882 = none ∧
  decodeTableWord 24 0x010084 = none

/-- Decoding the encoding of an instruction the machine has, whatever bytes follow it, gives the instruction back
(spec/30_encoding.md R80 to R86; which ext instructions a machine has is R9's `EXT_ALU`). -/
def Obligations.DecodeOfEncodeIsTheInstruction : Prop :=
  ∀ (cfg : Config) (i : Instr) (rest : List Byte), i.wellFormed cfg = true →
    decodeBytes cfg (encode i ++ rest) = .instr i

/-- Bytes that decode to an instruction are its encoding, up to the bytes it does not have, and the machine has that
instruction: each byte sequence has one meaning, and no bit of it is ignored (R85, R89). -/
def Obligations.EncodeOfDecodeIsTheBytes : Prop :=
  ∀ (cfg : Config) (op b1 b2 : Byte) (i : Instr), decode cfg op b1 b2 = .instr i →
    i.wellFormed cfg = true ∧ encode i = [op, b1, b2].take i.len

/-- R89: the opcode decoder answers KnownOp exactly for the whole-byte opcode of an operation in an enabled group, and
UnknownOp with the byte itself for every other byte. -/
def Obligations.OpcodeDecoderMatchesWholeByte : Prop :=
  ∀ (cfg : Config) (b : Byte),
    (∀ o, decodeOpcode cfg b = .knownOp o ↔ o.opcode = b ∧ o.enabled cfg = true) ∧
    ((∀ o : Op, ¬(o.opcode = b ∧ o.enabled cfg = true)) → decodeOpcode cfg b = .unknownOp b)

/-- R86 and R90, byte by byte: the 13 base opcodes are known always, the 8 ext opcodes when `EXT_ALU = true`, and
every other byte never. The values are the spec's choice from general knowledge (D2, D3). -/
def Obligations.KnownOpcodesAreTheMapsBytes : Prop :=
  ∀ (cfg : Config) (b : Byte),
    (∃ o, decodeOpcode cfg b = .knownOp o) ↔
      b ∈ [0x01, 0x82, 0x47, 0xA2, 0xA0, 0x45, 0x46, 0x50, 0x11, 0xA7, 0x54, 0x55, 0x56] ∨
      (cfg.extAlu = true ∧ b ∈ [0xA1, 0xA3, 0xA8, 0xAA, 0xAB, 0x69, 0xAC, 0xAD])

/-- Reading the assembly text of an instruction gives the instruction (R93, whose syntax beyond three spellings is the
spec's choice, D25; where white space stands is the model's, assumption 8). -/
def Obligations.AssemblyTextReadsBack : Prop :=
  ∀ i : Instr, readAsm (asmText i) = some i

/-! ### The step -/

/-- When the core is Running and the bytes at PC decode to an instruction, the step is exec of that instruction, and
the step adds nothing around it: exec itself advances PC (spec/40_machine_control.md R111 to R116). -/
def Obligations.StepRunsTheDecodedInstruction : Prop :=
  ∀ (cfg : Config) (s : State) (i : Instr), s.run = .running →
    decode cfg (s.memRead s.pc) (s.memRead (s.pc + 1)) (s.memRead (s.pc + 2)) = .instr i →
    stepWith cfg s = exec i s

/-- When the core is Running and the encoding of an instruction the machine has stands at PC (addresses modulo 256),
the step is exec of it (R80, R112, R113). -/
def Obligations.StepRunsTheEncodedInstruction : Prop :=
  ∀ (cfg : Config) (s : State) (i : Instr), s.run = .running → i.wellFormed cfg = true →
    (∀ (k : Nat) (h : k < (encode i).length), s.memRead (s.pc + BitVec.ofNat 8 k) = (encode i)[k]) →
    stepWith cfg s = exec i s

/-- R110: a step is possible exactly in Running. That the model's step answers the fault `noStep` elsewhere is the
model's choice (assumption 3). -/
def Obligations.StepIsPossibleExactlyInRunning : Prop :=
  ∀ (cfg : Config) (s : State),
    ((∃ t, stepWith cfg s = .next t) ↔ s.run = .running) ∧
    (s.run ≠ .running → stepWith cfg s = .fault (.noStep s.run))

/-- R114: "unless the operation sets PC directly, advance PC by 1 + operand_count for that opcode", modulo 256, for
every instruction that does not set PC and takes no fault. -/
def Obligations.AdvanceByInstructionLength : Prop :=
  ∀ (i : Instr) (s t : State), exec i s = .next t → s.run ≠ .faulted → t.run ≠ .faulted → setsPc i = false →
    t.pc = s.pc + BitVec.ofNat 8 (1 + i.op.operandCount)

/-- A table word placed by `withFetchWord` is what the very next step runs (the model's interface, assumption 4). -/
def Obligations.PlacedWordRunsNext : Prop :=
  ∀ (s : State) (nbits w : Nat) (i : Instr), decodeTableWord nbits w = some i →
    step (s.withFetchWord nbits w) = exec i (s.withFetchWord nbits w)

/-! ### Faults -/

/-- R90: on an opcode byte that is no enabled operation's, Fault mode takes IllegalInstruction with detail 0 and
changes nothing else, and Stall mode changes nothing at all. Which bytes those are is D2's and D3's choice, the two
modes D6's. -/
def Obligations.IllegalOpcodeFaultsOrStalls : Prop :=
  ∀ (cfg : Config) (s : State), s.run = .running →
    (∀ o : Op, o.enabled cfg = true → o.opcode ≠ s.memRead s.pc) →
    (cfg.illegalOpcodeMode = .fault →
      ∃ t, stepWith cfg s = .next t ∧ faultTaken .illegalInstruction (s.memRead s.pc) 0 s t) ∧
    (cfg.illegalOpcodeMode = .stall → stepWith cfg s = .next s)

/-- The register check of spec/30_encoding.md (R85) and spec/60_exceptions.md (R222): a register operand byte of 8 or
more is taken as RegisterOutOfRange with that byte as detail and no other effect, `b1` before `b2`, by exactly the
operations R222 lists; LDI's `b2` is not checked, and HLT and RET cannot raise it. When every register byte is at most 7
the step runs the operation. That the code is 2 and that the record has these four fields is the spec's own choice D12
(assumption 13), that the step commits nothing and PC stays is D11's (assumption 2), and which byte is which operation's
opcode is D2's and D3's (assumption 6). -/
def Obligations.OutOfRangeRegisterBytesFault : Prop :=
  Cause.code .registerOutOfRange = 2 ∧
  ∀ (cfg : Config) (s : State) (o : Op), s.run = .running → decodeOpcode cfg (s.memRead s.pc) = .knownOp o →
    let b1 := s.memRead (s.pc + 1)
    let b2 := s.memRead (s.pc + 2)
    let one : List Op := [.ldi, .prn, .push, .pop, .call, .jmp, .jeq, .jne, .not]
    let two : List Op := [.add, .mul, .cmp, .sub, .div, .and, .or, .xor, .shl, .shr]
    (o ∈ one ++ two → 8 ≤ b1.toNat →
      ∃ t, stepWith cfg s = .next t ∧ faultTaken .registerOutOfRange (s.memRead s.pc) b1 s t) ∧
    (o ∈ two → b1.toNat < 8 → 8 ≤ b2.toNat →
      ∃ t, stepWith cfg s = .next t ∧ faultTaken .registerOutOfRange (s.memRead s.pc) b2 s t) ∧
    ((o ∈ [.hlt, .ret]) ∨ (o ∈ one ∧ b1.toNat < 8) ∨ (o ∈ two ∧ b1.toNat < 8 ∧ b2.toNat < 8) →
      ∃ i, i.op = o ∧ stepWith cfg s = exec i s)

/-- DIV with a zero divisor (spec/60_exceptions.md R223) takes DivisionByZero, record {3, pc, 0xA3, 0}, with no other
effect, and no further instruction executes. That the code is 3 and that the record has these four fields is the spec's
own choice D12 (assumption 13), the opcode 0xA3 is D2's general knowledge (assumption 6), and "no other effect" is R147's
and R224's (D11, assumption 2). -/
def Obligations.DivisionByZeroFaults : Prop :=
  Cause.code .divisionByZero = 3 ∧
  ∀ (rA rB : Reg) (s : State), s.getReg rB = 0 →
    ∃ t, exec (.div rA rB) s = .next t ∧ faultTaken .divisionByZero 0xA3 0 s t ∧
      ∀ cfg u, stepWith cfg t ≠ .next u

/-- R224 to R227 (the precision of faults is the spec's choice, D11, and the order of checks D13): a step that enters
Faulted has no effect but the record and the run state; the record names the opcode at PC; the cause is one of codes
1, 2, 3, never a reserved one; and an illegal opcode or an offending register byte is reported before a zero
divisor. -/
def Obligations.FaultsArePreciseAndOrdered : Prop :=
  ∀ (cfg : Config) (s t : State), stepWith cfg s = .next t → t.run = .faulted →
    ∃ c d, faultTaken c (s.memRead s.pc) d s t ∧
      ((c.code = 1 ∧ d = 0 ∧ s.fetchDecode cfg = .illegalInstruction (s.memRead s.pc)) ∨
       (c.code = 2 ∧ 8 ≤ d.toNat ∧ s.fetchDecode cfg = .registerOutOfRange (s.memRead s.pc) d) ∨
       (c.code = 3 ∧ d = 0 ∧ ∃ rA rB, s.fetchDecode cfg = .instr (.div rA rB) ∧ s.getReg rB = 0))

/-- There is no trap handler, vector or return (spec/60_exceptions.md R228): a step that enters Faulted moves no PC and
stores nothing (R224, the spec's choice D11, assumption 2), and a fault is terminal: nothing that can happen to the core
leads out of Faulted but the host's reset, and until then no instruction runs and nothing changes. That stopping answers
no state in Faulted is the model's DESIGN CHOICE (assumption 9), as is the form in which step answers none (assumption
3). -/
def Obligations.OnlyResetLeavesFaulted : Prop :=
  ∀ (cfg : Config) (s t : State),
    (stepWith cfg s = .next t → t.run = .faulted → t.pc = s.pc ∧ regsKeptBut [] s t ∧ memKeptBut [] s t) ∧
    (∀ a : HostAction, s.run = .faulted → act cfg a s = .next t →
      (a = .reset ∧ t = State.resetWith cfg) ∨ (a = .debugRead ∧ t = s))

/-! ### Load-immediate and output -/

/-- LDI (spec/41_load_output.md): the register gets the immediate, PC advances by 3, nothing else changes. -/
def Obligations.LdiLoadsTheImmediate : Prop :=
  ∀ (rA : Reg) (imm : Byte) (s : State), ∃ t, exec (.ldi rA imm) s = .next t ∧
    t.getReg rA = imm ∧ t.pc = s.pc + 3 ∧
    regsKeptBut [rA] s t ∧ memKeptBut [] s t ∧ t.fl = s.fl ∧ t.out = s.out ∧ runKept s t

/-- PRN (spec/41_load_output.md): the register's value is appended to the output channel, PC advances by 2, nothing
else changes. -/
def Obligations.PrnEmitsTheRegister : Prop :=
  ∀ (rA : Reg) (s : State), ∃ t, exec (.prn rA) s = .next t ∧
    t.out = s.out ++ [s.getReg rA] ∧ t.pc = s.pc + 2 ∧
    regsKeptBut [] s t ∧ memKeptBut [] s t ∧ t.fl = s.fl ∧ runKept s t

/-- R130 whole, on memory bytes: with 0x82 at PC in a Running core, `b1 > 7` takes RegisterOutOfRange with no effect,
and otherwise register `b1` gets `b2`, whatever `b2` is, and PC advances by 3 modulo 256. -/
def Obligations.LdiBytesDoWhatLdiSays : Prop :=
  ∀ (cfg : Config) (s : State), s.run = .running → s.memRead s.pc = 0x82 →
    let b1 := s.memRead (s.pc + 1)
    let b2 := s.memRead (s.pc + 2)
    ∃ t, stepWith cfg s = .next t ∧
      (8 ≤ b1.toNat → faultTaken .registerOutOfRange 0x82 b1 s t) ∧
      (∀ rA : Reg, b1.toNat = rA.val →
        t.getReg rA = b2 ∧ t.pc = s.pc + 3 ∧
        regsKeptBut [rA] s t ∧ memKeptBut [] s t ∧ t.fl = s.fl ∧ t.out = s.out ∧ runKept s t)

/-- R131 whole, on memory bytes: with 0x47 at PC in a Running core, `b1 > 7` takes RegisterOutOfRange with no effect,
and otherwise the value of register `b1` is appended to the output and PC advances by 2; and what was emitted stays
emitted, whatever a later step does. -/
def Obligations.PrnBytesDoWhatPrnSays : Prop :=
  (∀ (cfg : Config) (s : State), s.run = .running → s.memRead s.pc = 0x47 →
    let b1 := s.memRead (s.pc + 1)
    ∃ t, stepWith cfg s = .next t ∧
      (8 ≤ b1.toNat → faultTaken .registerOutOfRange 0x47 b1 s t) ∧
      (∀ rA : Reg, b1.toNat = rA.val →
        t.out = s.out ++ [s.getReg rA] ∧ t.pc = s.pc + 2 ∧
        regsKeptBut [] s t ∧ memKeptBut [] s t ∧ t.fl = s.fl ∧ runKept s t)) ∧
  (∀ (cfg : Config) (s t : State), stepWith cfg s = .next t → s.out <+: t.out)

/-! ### ALU -/

/-- ADD, SUB, MUL (spec/42_alu.md; SUB's operand order is the spec's choice, D3): the first operand gets the exact
result modulo 256, both operands being read first; PC advances by 3; nothing else changes, FL included. -/
def Obligations.AddSubMulAreModulo256 : Prop :=
  ∀ (rA rB : Reg) (s : State),
    let a := (s.getReg rA).toNat
    let b := (s.getReg rB).toNat
    ∀ p ∈ [(Instr.add rA rB, (a + b) % 256), (Instr.sub rA rB, (a + 256 - b) % 256), (Instr.mul rA rB, a * b % 256)],
      ∃ t, exec p.1 s = .next t ∧ (t.getReg rA).toNat = p.2 ∧ t.pc = s.pc + 3 ∧
        regsKeptBut [rA] s t ∧ memKeptBut [] s t ∧ t.fl = s.fl ∧ t.out = s.out ∧ runKept s t

/-- AND, OR, XOR (spec/42_alu.md), bit by bit: the first operand gets the result; PC advances by 3; nothing else
changes. -/
def Obligations.AndOrXorAreBitwise : Prop :=
  ∀ (rA rB : Reg) (s : State),
    let a := fun k => (s.getReg rA).getLsbD k
    let b := fun k => (s.getReg rB).getLsbD k
    ∀ p ∈ [(Instr.and rA rB, fun k => a k && b k), (Instr.or rA rB, fun k => a k || b k),
           (Instr.xor rA rB, fun k => a k != b k)],
      ∃ t, exec p.1 s = .next t ∧ (∀ k, (t.getReg rA).getLsbD k = p.2 k) ∧ t.pc = s.pc + 3 ∧
        regsKeptBut [rA] s t ∧ memKeptBut [] s t ∧ t.fl = s.fl ∧ t.out = s.out ∧ runKept s t

/-- SHL and SHR (spec/42_alu.md; all of their semantics is the spec's choice, D4), bit by bit: logical shifts by the
whole byte in rB, zeros filling, so that a count of 8 or more gives 0; PC advances by 3; nothing else changes. -/
def Obligations.ShiftsAreLogicalByTheWholeByte : Prop :=
  ∀ (rA rB : Reg) (s : State),
    let a := fun k => (s.getReg rA).getLsbD k
    let n := (s.getReg rB).toNat
    ∀ p ∈ [(Instr.shl rA rB, fun k => decide (n ≤ k) && a (k - n)), (Instr.shr rA rB, fun k => a (k + n))],
      ∃ t, exec p.1 s = .next t ∧ (∀ k < 8, (t.getReg rA).getLsbD k = p.2 k) ∧
        (8 ≤ n → t.getReg rA = 0) ∧ t.pc = s.pc + 3 ∧
        regsKeptBut [rA] s t ∧ memKeptBut [] s t ∧ t.fl = s.fl ∧ t.out = s.out ∧ runKept s t

/-- DIV with a divisor that is not 0 (spec/42_alu.md): the first operand gets the unsigned quotient, characterised by
quotient and remainder; PC advances by 3; nothing else changes. -/
def Obligations.DivGivesTheQuotient : Prop :=
  ∀ (rA rB : Reg) (s : State), s.getReg rB ≠ 0 → ∃ t, exec (.div rA rB) s = .next t ∧
    (∃ r, r < (s.getReg rB).toNat ∧
      (s.getReg rA).toNat = (s.getReg rB).toNat * (t.getReg rA).toNat + r) ∧
    t.pc = s.pc + 3 ∧
    regsKeptBut [rA] s t ∧ memKeptBut [] s t ∧ t.fl = s.fl ∧ t.out = s.out ∧ runKept s t

/-- NOT (spec/42_alu.md; its one operand is the spec's choice, D3): the register gets 255 minus its value; PC advances
by 2; nothing else changes. -/
def Obligations.NotComplementsTheRegister : Prop :=
  ∀ (rA : Reg) (s : State), ∃ t, exec (.not rA) s = .next t ∧
    (t.getReg rA).toNat + (s.getReg rA).toNat = 255 ∧ t.pc = s.pc + 2 ∧
    regsKeptBut [rA] s t ∧ memKeptBut [] s t ∧ t.fl = s.fl ∧ t.out = s.out ∧ runKept s t

/-- R142: no instruction of the ALU family reads or writes FL, none touches memory, SP (unless it is `rA`) or the
output; each writes one register and advances PC by its length. DIV by zero, which faults, is
`DivisionByZeroFaults`. -/
def Obligations.AluFamilyWritesOneRegister : Prop :=
  ∀ (rA rB : Reg) (s : State) (f : Byte),
    ∀ i ∈ [Instr.add rA rB, .mul rA rB, .sub rA rB, .div rA rB, .and rA rB, .or rA rB, .xor rA rB, .shl rA rB,
           .shr rA rB, .not rA],
      (i = .div rA rB → s.getReg rB ≠ 0) →
      ∃ t, exec i s = .next t ∧ exec i (s.setFl f) = .next (t.setFl f) ∧
        regsKeptBut [rA] s t ∧ (rA ≠ 7 → t.sp = s.sp) ∧ memKeptBut [] s t ∧ t.fl = s.fl ∧ t.out = s.out ∧
        runKept s t ∧ t.pc = s.pc + BitVec.ofNat 8 (1 + i.op.operandCount)

/-! ### Stack -/

/-- PUSH (spec/43_stack.md): SP decrements, then the register (for R7 the decremented SP, by the order D14 fixes) is
stored in the cell at the new SP; PC advances by 2; nothing else changes. -/
def Obligations.PushStoresBelowTheStackTop : Prop :=
  ∀ (rA : Reg) (s : State), ∃ t, exec (.push rA) s = .next t ∧
    t.sp = s.sp - 1 ∧ t.memRead s.pushAddress = (if rA = 7 then s.sp - 1 else s.getReg rA) ∧
    s.pushAddress = s.sp - 1 ∧ t.pc = s.pc + 2 ∧
    regsKeptBut [7] s t ∧ memKeptBut [s.pushAddress] s t ∧ t.fl = s.fl ∧ t.out = s.out ∧ runKept s t

/-- POP (spec/43_stack.md): the register gets the cell at SP and SP increments (for R7, by the order D14 fixes, the
value popped is incremented); PC advances by 2; memory and everything else keep. -/
def Obligations.PopLoadsTheStackTop : Prop :=
  ∀ (rA : Reg) (s : State), ∃ t, exec (.pop rA) s = .next t ∧
    (rA ≠ 7 → t.getReg rA = s.memRead s.sp ∧ t.sp = s.sp + 1) ∧
    (rA = 7 → t.sp = s.memRead s.sp + 1) ∧ t.pc = s.pc + 2 ∧
    regsKeptBut [rA, 7] s t ∧ memKeptBut [] s t ∧ t.fl = s.fl ∧ t.out = s.out ∧ runKept s t

/-- The property of R182 (derived there): PUSH then POP of one register, R7 included, restores every register and
leaves only the stack cell written. -/
def Obligations.PushThenPopRestores : Prop :=
  ∀ (rA : Reg) (s : State), ∃ t u, exec (.push rA) s = .next t ∧ exec (.pop rA) t = .next u ∧
    regsKeptBut [] s u ∧ memKeptBut [s.pushAddress] s u ∧ u.fl = s.fl ∧ u.out = s.out ∧ runKept s u ∧
    u.pc = s.pc + 4

/-! ### Call and return -/

/-- CALL (spec/44_call_return.md): the return address pc + 2 is pushed, then PC gets the register, read after the push
(for R7 the decremented SP, by the order D14 fixes); nothing else changes. -/
def Obligations.CallPushesTheReturnAddress : Prop :=
  ∀ (rA : Reg) (s : State), ∃ t, exec (.call rA) s = .next t ∧
    t.pc = (if rA = 7 then s.sp - 1 else s.getReg rA) ∧
    t.sp = s.sp - 1 ∧ t.memRead s.pushAddress = s.pc + 2 ∧ s.pushAddress = s.sp - 1 ∧
    regsKeptBut [7] s t ∧ memKeptBut [s.pushAddress] s t ∧ t.fl = s.fl ∧ t.out = s.out ∧ runKept s t

/-- RET (spec/44_call_return.md): PC gets the cell at SP, SP increments once, nothing else changes. -/
def Obligations.RetPopsThePc : Prop :=
  ∀ (s : State), ∃ t, exec .ret s = .next t ∧
    t.pc = s.memRead s.sp ∧ t.sp = s.sp + 1 ∧
    regsKeptBut [7] s t ∧ memKeptBut [] s t ∧ t.fl = s.fl ∧ t.out = s.out ∧ runKept s t

/-- R192: CALL pushes one byte, the return address, and saves nothing else; a RET in any later state that finds SP and
the return-address cell as CALL left them resumes at the instruction after the CALL with SP as before it, and restores
nothing else. -/
def Obligations.CallThenReturnResumes : Prop :=
  ∀ (rA : Reg) (s : State), ∃ t, exec (.call rA) s = .next t ∧
    t.memRead (s.sp - 1) = s.pc + 2 ∧ memKeptBut [s.sp - 1] s t ∧ regsKeptBut [7] s t ∧
    ∀ u : State, u.sp = t.sp → u.memRead t.sp = t.memRead t.sp →
      ∃ v, exec .ret u = .next v ∧ v.pc = s.pc + 2 ∧ v.sp = s.sp ∧ regsKeptBut [7] u v ∧ memKeptBut [] u v

/-! ### Compare and jump -/

/-- CMP (spec/45_compare_branch.md): FL becomes 1 when the registers are equal and 0 otherwise, whatever their order,
so that G, L and bits 7:3 are 0 (their positions are the spec's choice, D9); PC advances by 3; no register and nothing
else changes. -/
def Obligations.CmpSetsOnlyEquality : Prop :=
  ∀ (rA rB : Reg) (s : State), ∃ t, exec (.cmp rA rB) s = .next t ∧
    (s.getReg rA = s.getReg rB → t.fl = 0x01) ∧ (s.getReg rA ≠ s.getReg rB → t.fl = 0x00) ∧
    t.flagG = false ∧ t.flagL = false ∧ t.pc = s.pc + 3 ∧
    regsKeptBut [] s t ∧ memKeptBut [] s t ∧ t.out = s.out ∧ runKept s t

/-- JMP (spec/45_compare_branch.md): PC gets the register; nothing else changes. -/
def Obligations.JmpSetsThePc : Prop :=
  ∀ (rA : Reg) (s : State), ∃ t, exec (.jmp rA) s = .next t ∧ t.pc = s.getReg rA ∧
    regsKeptBut [] s t ∧ memKeptBut [] s t ∧ t.fl = s.fl ∧ t.out = s.out ∧ runKept s t

/-- JEQ and JNE (spec/45_compare_branch.md): PC gets the register when bit 0 of FL is 1 (JEQ) or 0 (JNE), and pc + 2
otherwise; nothing else changes, taken or not. -/
def Obligations.ConditionalJumpsTestEquality : Prop :=
  ∀ (rA : Reg) (s : State),
    (∃ t, exec (.jeq rA) s = .next t ∧
      t.pc = (if s.fl.getLsbD 0 = true then s.getReg rA else s.pc + 2) ∧
      regsKeptBut [] s t ∧ memKeptBut [] s t ∧ t.fl = s.fl ∧ t.out = s.out ∧ runKept s t) ∧
    (∃ t, exec (.jne rA) s = .next t ∧
      t.pc = (if s.fl.getLsbD 0 = false then s.getReg rA else s.pc + 2) ∧
      regsKeptBut [] s t ∧ memKeptBut [] s t ∧ t.fl = s.fl ∧ t.out = s.out ∧ runKept s t)

/-- The branch condition of spec/45_compare_branch.md (R201): after a CMP and any instructions that are no CMP, JEQ is
taken exactly when the compared registers were equal, and JNE exactly when they were not: FL keeps its value until the
next CMP; and after reset, before any CMP, JNE is taken and JEQ is not. This last clause rests on FL's reset value, which
is the spec's own choice D10 (R250, assumption 13). -/
def Obligations.BranchFollowsTheLastCompare : Prop :=
  (∀ (rA rB rT : Reg) (s : State), ∃ t, exec (.cmp rA rB) s = .next t ∧
    ∀ u : State, u.fl = t.fl →
      (∃ v, exec (.jeq rT) u = .next v ∧
        v.pc = if s.getReg rA = s.getReg rB then u.getReg rT else u.pc + 2) ∧
      (∃ v, exec (.jne rT) u = .next v ∧
        v.pc = if s.getReg rA ≠ s.getReg rB then u.getReg rT else u.pc + 2)) ∧
  (∀ (i : Instr) (s t : State), (∀ rA rB, i ≠ .cmp rA rB) → exec i s = .next t → t.fl = s.fl) ∧
  (∀ (cfg : Config) (rT : Reg) (s : State), s.fl = (State.resetWith cfg).fl →
    (∃ v, exec (.jne rT) s = .next v ∧ v.pc = s.getReg rT) ∧
    (∃ v, exec (.jeq rT) s = .next v ∧ v.pc = s.pc + 2))

/-- R29: CMP writes FL and does not read it; JEQ and JNE read bit E alone and do not write FL; no other instruction
reads or writes FL, the ALU instructions among them. -/
def Obligations.OnlyCompareWritesAndBranchesReadFlags : Prop :=
  ∀ (i : Instr) (s t : State) (f : Byte), exec i s = .next t →
    ((∀ rA rB, i ≠ .cmp rA rB) → t.fl = s.fl) ∧
    ((∃ rA rB, i = .cmp rA rB) → exec i (s.setFl f) = .next t) ∧
    ((∀ rA rB, i ≠ .cmp rA rB) → (∀ rA, i ≠ .jeq rA ∧ i ≠ .jne rA) → exec i (s.setFl f) = .next (t.setFl f)) ∧
    ((∃ rA, i = .jeq rA ∨ i = .jne rA) →
      (f.getLsbD 0 = s.fl.getLsbD 0 → exec i (s.setFl f) = .next (t.setFl f)))

/-- R28's "No instruction reads FL as a whole byte, so no program can observe the bit positions" (an inference of the
spec; the positions are D9's choice): two runs of this hardware that start in states differing only in FL, with the
same bit E, stay so for any number of steps, with the same output. -/
def Obligations.ReservedFlagBitsAreUnobservable : Prop :=
  ∀ (n : Nat) (s t : State) (f : Byte), f.getLsbD 0 = s.fl.getLsbD 0 → Sys2Proof.core.run n s = .next t →
    ∃ g : Byte, Sys2Proof.core.run n (s.setFl f) = .next (t.setFl g) ∧ g.getLsbD 0 = t.fl.getLsbD 0

/-! ### Control and run state -/

/-- HLT (spec/40_machine_control.md): the core becomes Halted and PC advances by 1 (the advance is the spec's choice,
D15); nothing else changes. -/
def Obligations.HltHaltsTheCore : Prop :=
  ∀ (s : State), ∃ t, exec .hlt s = .next t ∧ t.run = .halted ∧ t.pc = s.pc + 1 ∧ t.fault = s.fault ∧
    regsKeptBut [] s t ∧ memKeptBut [] s t ∧ t.fl = s.fl ∧ t.out = s.out

/-- The Running rows of R32's transition table (its four states are the spec's choice, D18): a step leads to Halted
exactly when it runs HLT, never to Idle, and to Running exactly when it runs an instruction other than HLT without a
fault or stalls on an illegal opcode; otherwise to Faulted. -/
def Obligations.StepsFollowTheRunStateTable : Prop :=
  ∀ (cfg : Config) (s t : State), stepWith cfg s = .next t →
    (t.run = .halted ↔ s.fetchDecode cfg = .instr .hlt) ∧ t.run ≠ .idle ∧
    (t.run = .running ↔
      (∃ i, s.fetchDecode cfg = .instr i ∧ i ≠ .hlt ∧ ∀ rA rB, i = .div rA rB → s.getReg rB ≠ 0) ∨
      (∃ op, s.fetchDecode cfg = .illegalInstruction op ∧ cfg.illegalOpcodeMode = .stall))

/-- The host rows of R32's table and of R237's (D18), in both directions. Only these: load keeps Idle and run leads from
Idle to Running, and outside Idle neither gives a state (a refusal, R237); reset leads to Idle from any state; stopping
and the debug read change nothing; stopping gives no state outside Running (assumption 9). And all of these: reset and
the debug read answer in every state, load (of any image) and run in Idle, a step and stopping in Running. -/
def Obligations.HostActionsFollowTheRunStateTable : Prop :=
  ∀ (cfg : Config) (s : State),
    (∀ (a : HostAction) (t : State), act cfg a s = .next t →
      (a = .reset ∧ t = State.resetWith cfg ∧ t.run = .idle) ∨
      ((∃ img, a = .load img) ∧ s.run = .idle ∧ t.run = .idle) ∨
      (a = .run ∧ s.run = .idle ∧ t = s.setRun .running) ∨
      (a = .step ∧ s.run = .running) ∨
      (a = .stop ∧ s.run = .running ∧ t = s) ∨
      (a = .debugRead ∧ t = s)) ∧
    act cfg .reset s = .next (State.resetWith cfg) ∧
    act cfg .debugRead s = .next s ∧
    (s.run = .idle → (∀ img, ∃ t, act cfg (.load img) s = .next t) ∧ act cfg .run s = .next (s.setRun .running)) ∧
    (s.run = .running → (∃ t, act cfg .step s = .next t) ∧ act cfg .stop s = .next s)

/-- The output channel, the run state and the fault record are read by no instruction, and only PRN writes the
channel, by appending (spec/10_state.md R32, R33, R35, R37, whose run states, record and channel are the spec's
choices D18, D12, D17). A step appends the same values whatever stood in the channel, at most one, and only by PRN. And
an instruction does the same whatever the run state and the fault record are: they keep what they were, but that HLT
writes the run state, and DIV by zero both, with the same values. (That exec has an answer outside Running, where the
core has no step, is assumption 7.) -/
def Obligations.OutputIsAppendOnlyAndUnread : Prop :=
  (∀ (cfg : Config) (s t : State), stepWith cfg s = .next t →
    ∃ w, t.out = s.out ++ w ∧
      (w = [] ∨ ∃ rA, s.fetchDecode cfg = .instr (.prn rA) ∧ w = [s.getReg rA]) ∧
      ∀ o : List Byte, stepWith cfg { s with out := o } = .next { t with out := o ++ w }) ∧
  (∀ (i : Instr) (s t : State) (r : RunState) (f : Option FaultRecord), exec i s = .next t →
    let dividesByZero := ∃ rA rB, i = .div rA rB ∧ s.getReg rB = 0
    (i ≠ .hlt → ¬dividesByZero → exec i { s with run := r, fault := f } = .next { t with run := r, fault := f }) ∧
    (i = .hlt → exec i { s with run := r, fault := f } = .next { t with fault := f }) ∧
    (dividesByZero → exec i { s with run := r, fault := f } = .next t))

/-- Two runs that never end (R90's Stall mode, whose existence is D6's choice; R202's jump to its own address, JMP's
opcode being D2's, "a hang, not a halt"): the step answers a next state, and it is the same state; so no number of steps
ends the run or changes anything, and for this hardware n steps answer, with no fault and no refusal, that state. -/
def Obligations.HangsChangeNothingForEver : Prop :=
  ∀ (cfg : Config) (s : State), s.run = .running →
    (cfg.illegalOpcodeMode = .stall ∧ (∀ o : Op, o.enabled cfg = true → o.opcode ≠ s.memRead s.pc)) ∨
    (∃ rA : Reg, s.memRead s.pc = 0x54 ∧ s.memRead (s.pc + 1) = registerByte rA ∧ s.getReg rA = s.pc) →
    stepWith cfg s = .next s ∧
    (∀ n, runFor cfg n s = s) ∧
    (cfg = Config.hardware → ∀ n, Sys2Proof.core.run n s = .next s)

/-! ### Memory -/

/-- R52: a read returns the cell, and a write sets one cell, which reads as the value written through any further
writes of other cells, until the next write of it; every other cell and all other state keep. -/
def Obligations.ReadAfterWrite : Prop :=
  ∀ (s : State) (a v : Byte),
    memKeptBut [a] s (s.memWrite a v) ∧ (s.memWrite a v) = { s with mem := (s.memWrite a v).mem } ∧
    ∀ ws : List (Byte × Byte), (∀ w ∈ ws, w.1 ≠ a) →
      (ws.foldl (fun u w => u.memWrite w.1 w.2) (s.memWrite a v)).memRead a = v

/-- R53: these are all the memory accesses of a step. Whatever memory holds outside the cells the table reads, the
step does the same to everything but memory and stores the same values in the cells the table writes; and it changes
no other cell. -/
def Obligations.StepAccessesOnlyTheTablesCells : Prop :=
  ∀ (cfg : Config) (s t : State) (m : Memory), stepWith cfg s = .next t →
    memKeptBut (s.writeSet cfg) s t ∧
    ((∀ a ∈ s.readSet cfg, Memory.read m a.toNat = s.memRead a) →
      ∃ m', stepWith cfg { s with mem := m } = .next { t with mem := m' } ∧
        ∀ a : Byte, Memory.read m' a.toNat =
          if a ∈ s.writeSet cfg then t.memRead a else Memory.read m a.toNat)

/-! ### Invariant -/

/-- The state after reset meets the invariant, for every value of the parameters. -/
def Obligations.ResetMeetsTheInvariant : Prop :=
  ∀ cfg : Config, (State.resetWith cfg).Inv

/-- Every step keeps the invariant: memory stays canonical (assumption 5), FL stays 0 or 1 (R28, R30; positions D9),
and a fault record stands exactly in Faulted and names the instruction at PC, with one of the three causes and its
detail (R33, R220 to R226; D11, D12). -/
def Obligations.StepKeepsTheInvariant : Prop :=
  ∀ (cfg : Config) (s t : State), s.Inv → stepWith cfg s = .next t → t.Inv

/-- Whatever sequence of host actions and steps happens to a core from reset on, the invariant holds in every state it
reaches. -/
def Obligations.InvariantHoldsUnderEveryHostSequence : Prop :=
  ∀ (cfg : Config) (as : List HostAction) (s : State),
    (as.foldlM (fun u a => match act cfg a u with | .next v => some v | .fault _ => none | .refused _ => none)
      (State.resetWith cfg) = some s) → s.Inv

/-! ### Reset and the host -/

/-- The table of R250 (FL's value, Idle, no fault and no output are the spec's choice D10, SP's D8): all of memory 0,
x0 to x6 0, SP the parameter, which is 0xF4 in this hardware, PC 0, FL 0, Idle, no fault, no output. -/
def Obligations.ResetLeavesTheTablesValues : Prop :=
  ∀ (cfg : Config) (s : State),
    let t := hostReset cfg s
    (∀ a : Byte, t.memRead a = 0) ∧ (∀ r : Reg, r ≠ 7 → t.getReg r = 0) ∧ t.sp = cfg.spReset ∧
    t.pc = 0 ∧ t.fl = 0 ∧ t.run = .idle ∧ t.fault = none ∧ t.out = [] ∧
    State.reset = hostReset Config.hardware s ∧ State.reset.sp = 0xF4

/-- R239: in Idle, an image of more than 256 bytes gives MalformedProgram and changes nothing; any other image is
written from address 0 on, byte k in cell k, the cells past it and all other state keeping (so that an empty image
leaves memory all 0 after reset); outside Idle no load happens. -/
def Obligations.LoadWritesTheWholeImageOrNothing : Prop :=
  ∀ (img : List Byte) (s : State),
    (s.run = .idle → 256 < img.length → hostLoad img s = .next (s, .malformedProgram)) ∧
    (s.run = .idle → img.length ≤ 256 → ∃ t, hostLoad img s = .next (t, .ok) ∧
      (∀ a : Byte, t.memRead a = (img[a.toNat]?).getD (s.memRead a)) ∧ t = { s with mem := t.mem }) ∧
    (s.run ≠ .idle → ∀ t r, hostLoad img s ≠ .next (t, r))

/-- R119 and R252 (reset values D8, D10; run states D18): the launch state of an image of at most 256 bytes is
Running at address 0, with the image in memory and 0 elsewhere, and everything else as after reset; a longer image has
none. -/
def Obligations.LaunchStateOfAnImage : Prop :=
  ∀ (cfg : Config) (img : List Byte),
    (img.length ≤ 256 → ∃ s, launch cfg img = some s ∧ s.run = .running ∧ s.pc = 0 ∧
      (∀ a : Byte, s.memRead a = (img[a.toNat]?).getD 0) ∧ s.regs = (State.resetWith cfg).regs ∧
      s.fl = 0 ∧ s.fault = none ∧ s.out = []) ∧
    (256 < img.length → launch cfg img = none)

/-- The text of an image, one 8-digit binary byte a line (R95), stands for that image when it has at most 256 bytes and
is MalformedProgram otherwise (R241, whose limits are the spec's choice D19; white space is the model's, assumption 8).
The load of a program text (R239, R241; D18): in Idle, the text of such an image loads as the image does, from address 0
on, the other cells and all other state keeping; a text that stands for no image gives MalformedProgram and changes
nothing; outside Idle no load happens. -/
def Obligations.ProgramTextReadsBack : Prop :=
  (∀ img : List Byte,
    (img.length ≤ 256 → parseProgram (imageText img) = some img) ∧
    (256 < img.length → parseProgram (imageText img) = none)) ∧
  (∀ (img : List Byte) (s : State), s.run = .idle →
    hostLoadText (imageText img) s = hostLoad img s ∧
    (img.length ≤ 256 → ∃ t, hostLoadText (imageText img) s = .next (t, .ok) ∧
      (∀ a : Byte, t.memRead a = (img[a.toNat]?).getD (s.memRead a)) ∧ t = { s with mem := t.mem }) ∧
    (256 < img.length → hostLoadText (imageText img) s = .next (s, .malformedProgram))) ∧
  (∀ (text : List Char) (s : State),
    (s.run = .idle → parseProgram text = none → hostLoadText text s = .next (s, .malformedProgram)) ∧
    (s.run ≠ .idle → ∀ t r, hostLoadText text s ≠ .next (t, r)))

/-- R132 (the rendering is the host's by the spec's choice D17): a value's line is one to three decimal digits that
denote it, with no leading zero unless the value is 0, and a newline; the values render one after the other, and no
text stands before the first or where there is none. -/
def Obligations.OutputRendersAsDecimalLines : Prop :=
  (∀ v : Byte,
    (decimalDigits v).foldl (fun n c => 10 * n + (c.toNat - 48)) 0 = v.toNat ∧
    (decimalDigits v).length ∈ [1, 2, 3] ∧
    (∀ c ∈ decimalDigits v, 48 ≤ c.toNat ∧ c.toNat ≤ 57) ∧
    ((decimalDigits v).head? = some '0' → v = 0 ∧ decimalDigits v = ['0'])) ∧
  renderOutput [] = [] ∧
  (∀ (v : Byte) (out : List Byte), renderOutput (out ++ [v]) = renderOutput out ++ decimalDigits v ++ ['\n'])
end

