-- ==== Sys2Proof/Laws/State.lean ====
section
/-! SUPPORT. One lemma per field of State per update, and what each update leaves of the registers and of memory as
reads. Later proofs rewrite with these and never unfold a record update. -/

namespace Sys2Proof.Machine

@[simp] theorem setReg_regs (s : State) (r : Reg) (v : Byte) : (s.setReg r v).regs = s.regs.set r.val v := rfl
@[simp] theorem setReg_pc (s : State) (r : Reg) (v : Byte) : (s.setReg r v).pc = s.pc := rfl
@[simp] theorem setReg_fl (s : State) (r : Reg) (v : Byte) : (s.setReg r v).fl = s.fl := rfl
@[simp] theorem setReg_mem (s : State) (r : Reg) (v : Byte) : (s.setReg r v).mem = s.mem := rfl
@[simp] theorem setReg_run (s : State) (r : Reg) (v : Byte) : (s.setReg r v).run = s.run := rfl
@[simp] theorem setReg_fault (s : State) (r : Reg) (v : Byte) : (s.setReg r v).fault = s.fault := rfl
@[simp] theorem setReg_out (s : State) (r : Reg) (v : Byte) : (s.setReg r v).out = s.out := rfl

@[simp] theorem setSp_regs (s : State) (v : Byte) : (s.setSp v).regs = s.regs.set spIndex.val v := rfl
@[simp] theorem setSp_pc (s : State) (v : Byte) : (s.setSp v).pc = s.pc := rfl
@[simp] theorem setSp_fl (s : State) (v : Byte) : (s.setSp v).fl = s.fl := rfl
@[simp] theorem setSp_mem (s : State) (v : Byte) : (s.setSp v).mem = s.mem := rfl
@[simp] theorem setSp_run (s : State) (v : Byte) : (s.setSp v).run = s.run := rfl
@[simp] theorem setSp_fault (s : State) (v : Byte) : (s.setSp v).fault = s.fault := rfl
@[simp] theorem setSp_out (s : State) (v : Byte) : (s.setSp v).out = s.out := rfl

@[simp] theorem setPc_regs (s : State) (v : Byte) : (s.setPc v).regs = s.regs := rfl
@[simp] theorem setPc_pc (s : State) (v : Byte) : (s.setPc v).pc = v := rfl
@[simp] theorem setPc_fl (s : State) (v : Byte) : (s.setPc v).fl = s.fl := rfl
@[simp] theorem setPc_mem (s : State) (v : Byte) : (s.setPc v).mem = s.mem := rfl
@[simp] theorem setPc_run (s : State) (v : Byte) : (s.setPc v).run = s.run := rfl
@[simp] theorem setPc_fault (s : State) (v : Byte) : (s.setPc v).fault = s.fault := rfl
@[simp] theorem setPc_out (s : State) (v : Byte) : (s.setPc v).out = s.out := rfl

@[simp] theorem advance_regs (s : State) (v : Byte) : (s.advance v).regs = s.regs := rfl
@[simp] theorem advance_pc (s : State) (v : Byte) : (s.advance v).pc = s.pc + v := rfl
@[simp] theorem advance_fl (s : State) (v : Byte) : (s.advance v).fl = s.fl := rfl
@[simp] theorem advance_mem (s : State) (v : Byte) : (s.advance v).mem = s.mem := rfl
@[simp] theorem advance_run (s : State) (v : Byte) : (s.advance v).run = s.run := rfl
@[simp] theorem advance_fault (s : State) (v : Byte) : (s.advance v).fault = s.fault := rfl
@[simp] theorem advance_out (s : State) (v : Byte) : (s.advance v).out = s.out := rfl

@[simp] theorem setFl_regs (s : State) (v : Byte) : (s.setFl v).regs = s.regs := rfl
@[simp] theorem setFl_pc (s : State) (v : Byte) : (s.setFl v).pc = s.pc := rfl
@[simp] theorem setFl_fl (s : State) (v : Byte) : (s.setFl v).fl = v := rfl
@[simp] theorem setFl_mem (s : State) (v : Byte) : (s.setFl v).mem = s.mem := rfl
@[simp] theorem setFl_run (s : State) (v : Byte) : (s.setFl v).run = s.run := rfl
@[simp] theorem setFl_fault (s : State) (v : Byte) : (s.setFl v).fault = s.fault := rfl
@[simp] theorem setFl_out (s : State) (v : Byte) : (s.setFl v).out = s.out := rfl

@[simp] theorem emit_regs (s : State) (v : Byte) : (s.emit v).regs = s.regs := rfl
@[simp] theorem emit_pc (s : State) (v : Byte) : (s.emit v).pc = s.pc := rfl
@[simp] theorem emit_fl (s : State) (v : Byte) : (s.emit v).fl = s.fl := rfl
@[simp] theorem emit_mem (s : State) (v : Byte) : (s.emit v).mem = s.mem := rfl
@[simp] theorem emit_run (s : State) (v : Byte) : (s.emit v).run = s.run := rfl
@[simp] theorem emit_fault (s : State) (v : Byte) : (s.emit v).fault = s.fault := rfl
@[simp] theorem emit_out (s : State) (v : Byte) : (s.emit v).out = s.out ++ [v] := rfl

@[simp] theorem setRun_regs (s : State) (r : RunState) : (s.setRun r).regs = s.regs := rfl
@[simp] theorem setRun_pc (s : State) (r : RunState) : (s.setRun r).pc = s.pc := rfl
@[simp] theorem setRun_fl (s : State) (r : RunState) : (s.setRun r).fl = s.fl := rfl
@[simp] theorem setRun_mem (s : State) (r : RunState) : (s.setRun r).mem = s.mem := rfl
@[simp] theorem setRun_run (s : State) (r : RunState) : (s.setRun r).run = r := rfl
@[simp] theorem setRun_fault (s : State) (r : RunState) : (s.setRun r).fault = s.fault := rfl
@[simp] theorem setRun_out (s : State) (r : RunState) : (s.setRun r).out = s.out := rfl

@[simp] theorem memWrite_regs (s : State) (a v : Byte) : (s.memWrite a v).regs = s.regs := rfl
@[simp] theorem memWrite_pc (s : State) (a v : Byte) : (s.memWrite a v).pc = s.pc := rfl
@[simp] theorem memWrite_fl (s : State) (a v : Byte) : (s.memWrite a v).fl = s.fl := rfl
@[simp] theorem memWrite_mem (s : State) (a v : Byte) : (s.memWrite a v).mem = Memory.write s.mem a.toNat v := rfl
@[simp] theorem memWrite_run (s : State) (a v : Byte) : (s.memWrite a v).run = s.run := rfl
@[simp] theorem memWrite_fault (s : State) (a v : Byte) : (s.memWrite a v).fault = s.fault := rfl
@[simp] theorem memWrite_out (s : State) (a v : Byte) : (s.memWrite a v).out = s.out := rfl

@[simp] theorem raise_regs (s : State) (c : Cause) (op d : Byte) : (s.raise c op d).regs = s.regs := rfl
@[simp] theorem raise_pc (s : State) (c : Cause) (op d : Byte) : (s.raise c op d).pc = s.pc := rfl
@[simp] theorem raise_fl (s : State) (c : Cause) (op d : Byte) : (s.raise c op d).fl = s.fl := rfl
@[simp] theorem raise_mem (s : State) (c : Cause) (op d : Byte) : (s.raise c op d).mem = s.mem := rfl
@[simp] theorem raise_run (s : State) (c : Cause) (op d : Byte) : (s.raise c op d).run = .faulted := rfl
@[simp] theorem raise_fault (s : State) (c : Cause) (op d : Byte) : (s.raise c op d).fault = some ⟨c, s.pc, op, d⟩ := rfl
@[simp] theorem raise_out (s : State) (c : Cause) (op d : Byte) : (s.raise c op d).out = s.out := rfl

@[simp] theorem decSp_regs (s : State) : s.decSp.regs = s.regs.set spIndex.val (s.sp - 1) := rfl
@[simp] theorem decSp_pc (s : State) : s.decSp.pc = s.pc := rfl
@[simp] theorem decSp_fl (s : State) : s.decSp.fl = s.fl := rfl
@[simp] theorem decSp_mem (s : State) : s.decSp.mem = s.mem := rfl
@[simp] theorem decSp_run (s : State) : s.decSp.run = s.run := rfl
@[simp] theorem decSp_fault (s : State) : s.decSp.fault = s.fault := rfl
@[simp] theorem decSp_out (s : State) : s.decSp.out = s.out := rfl

@[simp] theorem incSp_regs (s : State) : s.incSp.regs = s.regs.set spIndex.val (s.sp + 1) := rfl
@[simp] theorem incSp_pc (s : State) : s.incSp.pc = s.pc := rfl
@[simp] theorem incSp_fl (s : State) : s.incSp.fl = s.fl := rfl
@[simp] theorem incSp_mem (s : State) : s.incSp.mem = s.mem := rfl
@[simp] theorem incSp_run (s : State) : s.incSp.run = s.run := rfl
@[simp] theorem incSp_fault (s : State) : s.incSp.fault = s.fault := rfl
@[simp] theorem incSp_out (s : State) : s.incSp.out = s.out := rfl

@[simp] theorem storeAtSp_regs (s : State) (v : Byte) : (s.storeAtSp v).regs = s.regs := rfl
@[simp] theorem storeAtSp_pc (s : State) (v : Byte) : (s.storeAtSp v).pc = s.pc := rfl
@[simp] theorem storeAtSp_fl (s : State) (v : Byte) : (s.storeAtSp v).fl = s.fl := rfl
@[simp] theorem storeAtSp_mem (s : State) (v : Byte) : (s.storeAtSp v).mem = Memory.write s.mem s.sp.toNat v := rfl
@[simp] theorem storeAtSp_run (s : State) (v : Byte) : (s.storeAtSp v).run = s.run := rfl
@[simp] theorem storeAtSp_fault (s : State) (v : Byte) : (s.storeAtSp v).fault = s.fault := rfl
@[simp] theorem storeAtSp_out (s : State) (v : Byte) : (s.storeAtSp v).out = s.out := rfl

/-- Reading a register after writing one. -/
@[simp] theorem getReg_setReg (s : State) (r q : Reg) (v : Byte) :
    (s.setReg r v).getReg q = if q = r then v else s.getReg q := by
  simp only [State.getReg, State.setReg, Vector.getElem_set, Fin.ext_iff, eq_comm]

theorem getReg_setReg_self (s : State) (r : Reg) (v : Byte) : (s.setReg r v).getReg r = v := by simp

theorem getReg_setReg_ne (s : State) {r q : Reg} (h : q ≠ r) (v : Byte) :
    (s.setReg r v).getReg q = s.getReg q := by simp [h]

@[simp] theorem getReg_setSp (s : State) (q : Reg) (v : Byte) :
    (s.setSp v).getReg q = if q = spIndex then v else s.getReg q := getReg_setReg s spIndex q v

@[simp] theorem getReg_decSp (s : State) (q : Reg) :
    s.decSp.getReg q = if q = spIndex then s.sp - 1 else s.getReg q := getReg_setReg s spIndex q _

@[simp] theorem getReg_incSp (s : State) (q : Reg) :
    s.incSp.getReg q = if q = spIndex then s.sp + 1 else s.getReg q := getReg_setReg s spIndex q _

theorem sp_eq (s : State) : s.sp = s.getReg spIndex := rfl

@[simp] theorem sp_setSp (s : State) (v : Byte) : (s.setSp v).sp = v := by simp [sp_eq]

@[simp] theorem sp_decSp (s : State) : s.decSp.sp = s.sp - 1 := by simp [sp_eq]

@[simp] theorem sp_incSp (s : State) : s.incSp.sp = s.sp + 1 := by simp [sp_eq]

@[simp] theorem memRead_setReg (s : State) (r : Reg) (v : Byte) (x : Byte) : (s.setReg r v).memRead x = s.memRead x := rfl
@[simp] theorem memRead_setSp (s : State) (v : Byte) (x : Byte) : (s.setSp v).memRead x = s.memRead x := rfl
@[simp] theorem getReg_setPc (s : State) (v : Byte) (q : Reg) : (s.setPc v).getReg q = s.getReg q := rfl
@[simp] theorem sp_setPc (s : State) (v : Byte) : (s.setPc v).sp = s.sp := rfl
@[simp] theorem memRead_setPc (s : State) (v : Byte) (x : Byte) : (s.setPc v).memRead x = s.memRead x := rfl
@[simp] theorem getReg_advance (s : State) (v : Byte) (q : Reg) : (s.advance v).getReg q = s.getReg q := rfl
@[simp] theorem sp_advance (s : State) (v : Byte) : (s.advance v).sp = s.sp := rfl
@[simp] theorem memRead_advance (s : State) (v : Byte) (x : Byte) : (s.advance v).memRead x = s.memRead x := rfl
@[simp] theorem getReg_setFl (s : State) (v : Byte) (q : Reg) : (s.setFl v).getReg q = s.getReg q := rfl
@[simp] theorem sp_setFl (s : State) (v : Byte) : (s.setFl v).sp = s.sp := rfl
@[simp] theorem memRead_setFl (s : State) (v : Byte) (x : Byte) : (s.setFl v).memRead x = s.memRead x := rfl
@[simp] theorem getReg_emit (s : State) (v : Byte) (q : Reg) : (s.emit v).getReg q = s.getReg q := rfl
@[simp] theorem sp_emit (s : State) (v : Byte) : (s.emit v).sp = s.sp := rfl
@[simp] theorem memRead_emit (s : State) (v : Byte) (x : Byte) : (s.emit v).memRead x = s.memRead x := rfl
@[simp] theorem getReg_setRun (s : State) (r : RunState) (q : Reg) : (s.setRun r).getReg q = s.getReg q := rfl
@[simp] theorem sp_setRun (s : State) (r : RunState) : (s.setRun r).sp = s.sp := rfl
@[simp] theorem memRead_setRun (s : State) (r : RunState) (x : Byte) : (s.setRun r).memRead x = s.memRead x := rfl
@[simp] theorem getReg_memWrite (s : State) (a v : Byte) (q : Reg) : (s.memWrite a v).getReg q = s.getReg q := rfl
@[simp] theorem sp_memWrite (s : State) (a v : Byte) : (s.memWrite a v).sp = s.sp := rfl
@[simp] theorem getReg_raise (s : State) (c : Cause) (op d : Byte) (q : Reg) : (s.raise c op d).getReg q = s.getReg q := rfl
@[simp] theorem sp_raise (s : State) (c : Cause) (op d : Byte) : (s.raise c op d).sp = s.sp := rfl
@[simp] theorem memRead_raise (s : State) (c : Cause) (op d : Byte) (x : Byte) : (s.raise c op d).memRead x = s.memRead x := rfl
@[simp] theorem memRead_decSp (s : State) (x : Byte) : s.decSp.memRead x = s.memRead x := rfl
@[simp] theorem memRead_incSp (s : State) (x : Byte) : s.incSp.memRead x = s.memRead x := rfl
@[simp] theorem getReg_storeAtSp (s : State) (v : Byte) (q : Reg) : (s.storeAtSp v).getReg q = s.getReg q := rfl
@[simp] theorem sp_storeAtSp (s : State) (v : Byte) : (s.storeAtSp v).sp = s.sp := rfl

/-- Registers are equal when every register reads the same. -/
theorem regs_ext {s t : State} (h : ∀ r, t.getReg r = s.getReg r) : t.regs = s.regs := by
  apply Vector.ext
  intro i hi
  exact h ⟨i, hi⟩

/-- Two states are equal when all their fields are. -/
theorem state_ext {s t : State} (hr : ∀ r, t.getReg r = s.getReg r) (hp : t.pc = s.pc) (hf : t.fl = s.fl)
    (hm : t.mem = s.mem) (hu : t.run = s.run) (hx : t.fault = s.fault) (ho : t.out = s.out) : t = s := by
  have hregs := regs_ext hr
  cases s
  cases t
  simp_all

end Sys2Proof.Machine
end

