-- ==== Sys2Proof/Laws/Alu.lean ====
section
/-! SUPPORT. What the ALU computes, as bit-vector operations, and everything that committing its answer can do. -/

namespace Sys2Proof.Machine

theorem toNat_trunc8 (n : Nat) : (trunc8 n).toNat = n % 256 := by simp [trunc8]

theorem aluAdd_eq (a b : Byte) : aluAdd a b = a + b := by
  apply BitVec.eq_of_toNat_eq
  simp [aluAdd, toNat_trunc8]

theorem aluSub_eq (a b : Byte) : aluSub a b = a - b := by
  apply BitVec.eq_of_toNat_eq
  rw [aluSub, toNat_trunc8, BitVec.toNat_sub]
  have := b.isLt
  omega

theorem aluMul_eq (a b : Byte) : aluMul a b = a * b := by
  apply BitVec.eq_of_toNat_eq
  simp [aluMul, toNat_trunc8]

theorem aluQuotient_eq (a b : Byte) : aluQuotient a b = a / b := by
  apply BitVec.eq_of_toNat_eq
  rw [aluQuotient, toNat_trunc8, BitVec.toNat_udiv]
  exact Nat.mod_eq_of_lt (lt_of_le_of_lt (Nat.div_le_self _ _) a.isLt)

theorem aluShl_eq (a b : Byte) : aluShl a b = a <<< b.toNat := by
  apply BitVec.eq_of_toNat_eq
  rw [aluShl, toNat_trunc8, BitVec.toNat_shiftLeft, Nat.shiftLeft_eq]

theorem aluShr_eq (a b : Byte) : aluShr a b = a >>> b.toNat := by
  apply BitVec.eq_of_toNat_eq
  rw [aluShr, toNat_trunc8, BitVec.toNat_ushiftRight, Nat.shiftRight_eq_div_pow]
  exact Nat.mod_eq_of_lt (lt_of_le_of_lt (Nat.div_le_self _ _) a.isLt)

theorem aluNot_eq (a : Byte) : aluNot a = ~~~a := by
  apply BitVec.eq_of_toNat_eq
  rw [aluNot, toNat_trunc8, BitVec.toNat_not]
  omega

/-- Only equality reaches FL. -/
theorem compareFl_compare (a b : Byte) : compareFl (compare a.toNat b.toNat) = if a = b then 1 else 0 := by
  have h : compare a.toNat b.toNat = .eq ↔ a = b := by rw [Nat.compare_eq_eq, BitVec.toNat_inj]
  cases hc : compare a.toNat b.toNat <;> simp_all [compareFl]

@[simp] theorem commitAlu_value (s : State) (rA : Reg) (len v : Byte) :
    s.commitAlu rA len (.value v) = (s.setReg rA v).advance len := rfl

@[simp] theorem commitAlu_compared (s : State) (rA : Reg) (len : Byte) (o : Ordering) :
    s.commitAlu rA len (.compared o) = (s.setFl (compareFl o)).advance len := rfl

@[simp] theorem commitAlu_divisionByZero (s : State) (rA : Reg) (len : Byte) :
    s.commitAlu rA len .divisionByZero = s.raise .divisionByZero 0xA3 0 := rfl

/-- Everything an ALU instruction can do: write its register and advance, write FL and advance, or take
DivisionByZero. -/
theorem commitAlu_cases (s : State) (rA : Reg) (len : Byte) (r : AluResult) :
    (∃ v, r = .value v ∧ s.commitAlu rA len r = (s.setReg rA v).advance len) ∨
    (∃ o, r = .compared o ∧ s.commitAlu rA len r = (s.setFl (compareFl o)).advance len) ∨
    (r = .divisionByZero ∧ s.commitAlu rA len r = s.raise .divisionByZero 0xA3 0) := by
  cases r with
  | value v => exact .inl ⟨v, rfl, rfl⟩
  | compared o => exact .inr (.inl ⟨o, rfl, rfl⟩)
  | divisionByZero => exact .inr (.inr ⟨rfl, rfl⟩)

/-- DIV's answer. -/
theorem alu_div (a b : Byte) : alu .div a b = if b = 0 then .divisionByZero else .value (a / b) := by
  rw [alu, aluQuotient_eq]

end Sys2Proof.Machine
end

