-- ==== Sys2Proof/Laws/Decode.lean ====
section
/-! SUPPORT. The small lemmas of the decoder and the encoder: register bytes, the opcode map, operand formats. -/

namespace Sys2Proof

@[simp] theorem toNat_registerByte (r : Reg) : (registerByte r).toNat = r.val := by
  have := r.isLt
  simp only [registerByte, BitVec.toNat_ofNat]
  omega

/-- A register operand byte names exactly the register whose index it holds. -/
theorem registerOperand_eq_some {b : Byte} {r : Reg} : registerOperand b = some r ↔ b = registerByte r := by
  unfold registerOperand
  constructor
  · intro h
    split at h
    · rw [← Option.some.inj h]
      apply BitVec.eq_of_toNat_eq
      rw [toNat_registerByte]
    · cases h
  · rintro rfl
    simp

theorem registerOperand_eq_none {b : Byte} : registerOperand b = none ↔ 8 ≤ b.toNat := by
  unfold registerOperand
  split <;> simp_all

@[simp] theorem registerOperand_registerByte (r : Reg) : registerOperand (registerByte r) = some r :=
  registerOperand_eq_some.mpr rfl

theorem Op.mem_all (o : Op) : o ∈ Op.all := by cases o <;> decide

/-- No two rows of the opcode map share an opcode. -/
theorem Op.opcode_inj {o p : Op} (h : o.opcode = p.opcode) : o = p := by
  revert h
  cases o <;> cases p <;> decide

/-- The opcode of an enabled operation decodes to it. -/
theorem decodeOpcode_opcode {cfg : Config} {o : Op} (h : o.enabled cfg = true) :
    decodeOpcode cfg o.opcode = .knownOp o := by
  unfold decodeOpcode
  cases hf : Op.all.find? (fun p => p.opcode == o.opcode && p.enabled cfg) with
  | none =>
    have := List.find?_eq_none.mp hf o (Op.mem_all o)
    simp [h] at this
  | some p =>
    have := List.find?_some hf
    simp only [Bool.and_eq_true, beq_iff_eq] at this
    rw [Op.opcode_inj this.1]

/-- What decodes to an operation is its opcode, and the operation is enabled. -/
theorem decodeOpcode_known {cfg : Config} {b : Byte} {o : Op} (h : decodeOpcode cfg b = .knownOp o) :
    b = o.opcode ∧ o.enabled cfg = true := by
  unfold decodeOpcode at h
  split at h
  · rename_i p hf
    have := List.find?_some hf
    simp only [Bool.and_eq_true, beq_iff_eq] at this
    cases h
    exact ⟨this.1.symm, this.2⟩
  · cases h

/-- What decodes to nothing is the opcode of no enabled operation. -/
theorem decodeOpcode_unknown {cfg : Config} {b u : Byte} (h : decodeOpcode cfg b = .unknownOp u) :
    u = b ∧ ∀ o : Op, o.enabled cfg = true → o.opcode ≠ b := by
  have hu : u = b := by
    unfold decodeOpcode at h
    split at h <;> cases h
    rfl
  refine ⟨hu, fun o ho hb => ?_⟩
  rw [← hb, decodeOpcode_opcode ho] at h
  cases h

/-- An instruction's group is its opcode row's. -/
theorem Instr.ext_row (i : Instr) : i.op.row.ext = i.isExt := by cases i <;> rfl

/-- An instruction is well-formed exactly when its operation is enabled. -/
theorem Instr.enabled_op (cfg : Config) (i : Instr) : i.op.enabled cfg = i.wellFormed cfg := by
  rw [Op.enabled, Instr.wellFormed, Instr.ext_row]

/-- An instruction has as many operand bytes as its format. -/
theorem Instr.length_operandBytes (i : Instr) : i.operandBytes.length = i.op.operandCount := by
  cases i <;> rfl

theorem length_encode (i : Instr) : (encode i).length = i.len := by
  simp [encode, Instr.len, Instr.length_operandBytes, Nat.add_comm]

theorem decodeF1R_instr {op b1 : Byte} {mk : Reg → Instr} {i : Instr} (h : decodeF1R op b1 mk = .instr i) :
    ∃ rA, b1 = registerByte rA ∧ i = mk rA := by
  unfold decodeF1R at h
  split at h
  · rename_i rA hr
    cases h
    exact ⟨rA, registerOperand_eq_some.mp hr, rfl⟩
  · cases h

theorem decodeF2RR_instr {op b1 b2 : Byte} {mk : Reg → Reg → Instr} {i : Instr}
    (h : decodeF2RR op b1 b2 mk = .instr i) :
    ∃ rA rB, b1 = registerByte rA ∧ b2 = registerByte rB ∧ i = mk rA rB := by
  unfold decodeF2RR at h
  split at h
  · rename_i rA hr
    split at h
    · rename_i rB hs
      cases h
      exact ⟨rA, rB, registerOperand_eq_some.mp hr, registerOperand_eq_some.mp hs, rfl⟩
    · cases h
  · cases h

theorem decodeF2RI_instr {op b1 b2 : Byte} {mk : Reg → Byte → Instr} {i : Instr}
    (h : decodeF2RI op b1 b2 mk = .instr i) : ∃ rA, b1 = registerByte rA ∧ i = mk rA b2 := by
  unfold decodeF2RI at h
  split at h
  · rename_i rA hr
    cases h
    exact ⟨rA, registerOperand_eq_some.mp hr, rfl⟩
  · cases h

/-- Operand bytes that become an instruction give one of the operation decoded. -/
theorem decodeOperands_op {o : Op} {op b1 b2 : Byte} {i : Instr} (h : decodeOperands o op b1 b2 = .instr i) :
    i.op = o := by
  cases o <;> simp only [decodeOperands] at h <;>
    first
    | (cases h; rfl)
    | (obtain ⟨_, _, rfl⟩ := decodeF1R_instr h; rfl)
    | (obtain ⟨_, _, _, _, rfl⟩ := decodeF2RR_instr h; rfl)

/-- Operand bytes never make a known operation illegal. -/
theorem decodeOperands_not_illegal (o : Op) (op b1 b2 u : Byte) :
    decodeOperands o op b1 b2 ≠ .illegalInstruction u := by
  cases o <;> simp only [decodeOperands, decodeF1R, decodeF2RR, decodeF2RI] <;> (repeat' split) <;> simp

/-- An out-of-range register is reported with the opcode and a byte above 7. -/
theorem decodeOperands_badRegister {o : Op} {op b1 b2 p b : Byte}
    (h : decodeOperands o op b1 b2 = .registerOutOfRange p b) : p = op ∧ 8 ≤ b.toNat := by
  cases o <;> simp only [decodeOperands, decodeF1R, decodeF2RR, decodeF2RI] at h <;> (repeat' split at h) <;>
    cases h <;> exact ⟨rfl, registerOperand_eq_none.mp ‹_›⟩

/-- Bytes past the operation's operand count are not looked at. -/
theorem decodeOperands_unused (o : Op) (op b1 b2 : Byte) :
    decodeOperands o op (if o.operandCount ≥ 1 then b1 else 0) (if o.operandCount = 2 then b2 else 0) =
      decodeOperands o op b1 b2 := by
  cases o <;> rfl

end Sys2Proof
end

