-- ==== Sys2Proof/Laws/Memory.lean ====
section
/-! SUPPORT. The laws of memory: a read after a write, the canonical form, and that equal reads are equal
memories. -/

namespace Sys2Proof.Machine

@[simp] theorem Memory.read_nil (a : Nat) : Memory.read [] a = 0 := rfl

@[simp] theorem Memory.read_cons (k : Nat) (v : Byte) (m : Memory) (a : Nat) :
    Memory.read ((k, v) :: m) a = if k = a then v else Memory.read m a := rfl

theorem Memory.wfFrom_cons (lo k : Nat) (v : Byte) (m : Memory) :
    Memory.wfFrom lo ((k, v) :: m) = true ↔ lo ≤ k ∧ k < 256 ∧ v ≠ 0 ∧ Memory.wfFrom (k + 1) m = true := by
  simp only [Memory.wfFrom, Memory.unlisted, Bool.and_eq_true, decide_eq_true_eq, bne_iff_ne, and_assoc]

theorem Memory.wfFrom_mono {lo hi : Nat} {m : Memory} (h : lo ≤ hi) (hm : Memory.wfFrom hi m = true) :
    Memory.wfFrom lo m = true := by
  cases m with
  | nil => rfl
  | cons c rest =>
    obtain ⟨k, v⟩ := c
    rw [Memory.wfFrom_cons] at hm ⊢
    exact ⟨by omega, hm.2⟩

/-- Below where a canonical memory begins, every cell is 0. -/
theorem Memory.read_below {lo a : Nat} {m : Memory} (hm : Memory.wfFrom lo m = true) (h : a < lo) :
    Memory.read m a = 0 := by
  induction m generalizing lo with
  | nil => rfl
  | cons c rest ih =>
    obtain ⟨k, v⟩ := c
    rw [Memory.wfFrom_cons] at hm
    rw [Memory.read_cons, if_neg (by omega)]
    exact ih hm.2.2.2 (by omega)

theorem Memory.read_erase (m : Memory) (a b : Nat) :
    Memory.read (Memory.erase m a) b = if b = a then 0 else Memory.read m b := by
  induction m with
  | nil => simp [Memory.erase]
  | cons c rest ih =>
    obtain ⟨k, w⟩ := c
    unfold Memory.erase
    split
    · rw [ih, Memory.read_cons]
      split
      · rfl
      · rw [if_neg (by omega)]
    · rw [Memory.read_cons, ih, Memory.read_cons]
      split <;> split <;> first | rfl | omega

theorem Memory.read_insert {m : Memory} {a : Nat} (b : Nat) (v : Byte)
    (ha : ∀ c ∈ m, c.1 ≠ a) :
    Memory.read (Memory.insert m a v) b = if b = a then v else Memory.read m b := by
  induction m with
  | nil => simp [Memory.insert, eq_comm]
  | cons c rest ih =>
    obtain ⟨k, w⟩ := c
    have hk : k ≠ a := ha (k, w) (by simp)
    unfold Memory.insert
    split
    · rw [Memory.read_cons, ih (fun c hc => ha c (by simp [hc])), Memory.read_cons]
      split <;> split <;> first | rfl | omega
    · rw [Memory.read_cons]
      simp only [eq_comm]

theorem Memory.erase_keys (m : Memory) (a : Nat) : ∀ c ∈ Memory.erase m a, c.1 ≠ a := by
  induction m with
  | nil => simp [Memory.erase]
  | cons c rest ih =>
    obtain ⟨k, w⟩ := c
    unfold Memory.erase
    split
    · exact ih
    · rename_i hk
      intro d hd
      rcases List.mem_cons.mp hd with rfl | hd
      · exact hk
      · exact ih d hd

/-- A read after a write, in any memory. -/
theorem Memory.read_write (m : Memory) (a b : Nat) (v : Byte) :
    Memory.read (Memory.write m a v) b = if b = a then v else Memory.read m b := by
  unfold Memory.write
  split
  · rename_i hv
    rw [Memory.read_erase, hv, Memory.unlisted]
  · rw [Memory.read_insert b v (Memory.erase_keys m a), Memory.read_erase]
    split <;> rfl

theorem Memory.wfFrom_erase {lo : Nat} {m : Memory} (hm : Memory.wfFrom lo m = true) (a : Nat) :
    Memory.wfFrom lo (Memory.erase m a) = true := by
  induction m generalizing lo with
  | nil => rfl
  | cons c rest ih =>
    obtain ⟨k, w⟩ := c
    rw [Memory.wfFrom_cons] at hm
    unfold Memory.erase
    split
    · exact ih (Memory.wfFrom_mono (by omega) hm.2.2.2)
    · rw [Memory.wfFrom_cons]
      exact ⟨hm.1, hm.2.1, hm.2.2.1, ih hm.2.2.2⟩

theorem Memory.wfFrom_insert {lo : Nat} {m : Memory} (hm : Memory.wfFrom lo m = true) {a : Nat} (hlo : lo ≤ a)
    (ha : a < 256) {v : Byte} (hv : v ≠ 0) (hk : ∀ c ∈ m, c.1 ≠ a) :
    Memory.wfFrom lo (Memory.insert m a v) = true := by
  induction m generalizing lo with
  | nil =>
    unfold Memory.insert
    rw [Memory.wfFrom_cons]
    exact ⟨hlo, ha, hv, rfl⟩
  | cons c rest ih =>
    obtain ⟨k, w⟩ := c
    rw [Memory.wfFrom_cons] at hm
    have hka : k ≠ a := hk (k, w) (by simp)
    unfold Memory.insert
    split
    · rw [Memory.wfFrom_cons]
      exact ⟨hm.1, hm.2.1, hm.2.2.1, ih hm.2.2.2 (by omega) (fun c hc => hk c (by simp [hc]))⟩
    · rw [Memory.wfFrom_cons, Memory.wfFrom_cons]
      exact ⟨hlo, ha, hv, by omega, hm.2.1, hm.2.2.1, hm.2.2.2⟩

/-- A write keeps the canonical form. -/
theorem Memory.wfFrom_write {lo : Nat} {m : Memory} (hm : Memory.wfFrom lo m = true) {a : Nat} (hlo : lo ≤ a)
    (ha : a < 256) (v : Byte) : Memory.wfFrom lo (Memory.write m a v) = true := by
  unfold Memory.write
  split
  · exact Memory.wfFrom_erase hm a
  · rename_i hv
    exact Memory.wfFrom_insert (Memory.wfFrom_erase hm a) hlo ha hv (Memory.erase_keys m a)

/-- Canonical memories that read the same at every address are the same list. -/
theorem Memory.ext_from {lo : Nat} {m n : Memory} (hm : Memory.wfFrom lo m = true) (hn : Memory.wfFrom lo n = true)
    (h : ∀ a, Memory.read m a = Memory.read n a) : m = n := by
  induction m generalizing lo n with
  | nil =>
    cases n with
    | nil => rfl
    | cons c rest =>
      obtain ⟨k, v⟩ := c
      rw [Memory.wfFrom_cons] at hn
      have := h k
      simp at this
      exact absurd this.symm hn.2.2.1
  | cons c rest ih =>
    obtain ⟨k, v⟩ := c
    rw [Memory.wfFrom_cons] at hm
    cases n with
    | nil =>
      have := h k
      simp at this
      exact absurd this hm.2.2.1
    | cons d rest' =>
      obtain ⟨j, w⟩ := d
      rw [Memory.wfFrom_cons] at hn
      have below : ∀ x, x < k + 1 → Memory.read rest x = 0 := fun x hx => Memory.read_below hm.2.2.2 hx
      have below' : ∀ x, x < j + 1 → Memory.read rest' x = 0 := fun x hx => Memory.read_below hn.2.2.2 hx
      have hkj : k = j := by
        rcases Nat.lt_trichotomy k j with hlt | heq | hgt
        · have := h k
          rw [Memory.read_cons, if_pos rfl, Memory.read_cons, if_neg (by omega), below' k (by omega)] at this
          exact absurd this hm.2.2.1
        · exact heq
        · have := h j
          rw [Memory.read_cons, if_neg (by omega), below j (by omega), Memory.read_cons, if_pos rfl] at this
          exact absurd this.symm hn.2.2.1
      subst hkj
      have hvw : v = w := by simpa using h k
      subst hvw
      rw [ih hm.2.2.2 hn.2.2.2]
      intro a
      by_cases ha : a < k + 1
      · rw [below a ha, below' a ha]
      · have := h a
        rwa [Memory.read_cons, if_neg (by omega), Memory.read_cons, if_neg (by omega)] at this

theorem Memory.wf_nil : Memory.wf [] = true := rfl

/-- Memory after reset is canonical. -/
theorem wf_resetWith (cfg : Config) : Memory.wf (State.resetWith cfg).mem = true := rfl

/-- A write to a cell of the space keeps the canonical form. -/
theorem Memory.wf_write {m : Memory} (hm : Memory.wf m = true) {a : Nat} (ha : a < 256) (v : Byte) :
    Memory.wf (Memory.write m a v) = true := Memory.wfFrom_write hm (Nat.zero_le a) ha v

/-- An image that ends inside the space keeps the canonical form. -/
theorem Memory.wf_writeImage {img : List Byte} {m : Memory} {k : Nat} (hm : Memory.wf m = true)
    (hk : k + img.length ≤ 256) : Memory.wf (Memory.writeImage m k img) = true := by
  induction img generalizing m k with
  | nil => exact hm
  | cons b rest ih =>
    simp only [List.length_cons] at hk
    exact ih (Memory.wf_write hm (by omega) b) (by omega)

/-- What memory reads after an image was written. -/
theorem Memory.read_writeImage (img : List Byte) (m : Memory) (k a : Nat) :
    Memory.read (Memory.writeImage m k img) a =
      if k ≤ a then (img[a - k]?).getD (Memory.read m a) else Memory.read m a := by
  induction img generalizing m k with
  | nil => simp [Memory.writeImage]
  | cons b rest ih =>
    rw [Memory.writeImage, ih, Memory.read_write]
    rcases Nat.lt_trichotomy a k with h | h | h
    · simp only [show ¬ k + 1 ≤ a by omega, show ¬ k ≤ a by omega, show a ≠ k by omega, if_false]
    · subst h
      simp
    · obtain ⟨d, hd⟩ : ∃ d, a - k = d + 1 := ⟨a - k - 1, by omega⟩
      have h2 : a - (k + 1) = d := by omega
      simp only [show k + 1 ≤ a by omega, show k ≤ a by omega, show a ≠ k by omega, if_true, if_false, hd, h2,
        List.getElem?_cons_succ]

/-- `MemRead` after `MemWrite`. -/
@[simp] theorem memRead_memWrite (s : State) (a b v : Byte) :
    (s.memWrite a v).memRead b = if b = a then v else s.memRead b := by
  simp only [State.memRead, memWrite_mem, Memory.read_write, BitVec.toNat_inj]

/-- `MemWrite` keeps the canonical form. -/
theorem wf_memWrite {s : State} (hm : Memory.wf s.mem = true) (a v : Byte) :
    Memory.wf (s.memWrite a v).mem = true := Memory.wf_write hm a.isLt v

/-- `MemRead` after the store of a push. -/
@[simp] theorem memRead_storeAtSp (s : State) (b v : Byte) :
    (s.storeAtSp v).memRead b = if b = s.sp then v else s.memRead b := memRead_memWrite s s.sp b v

/-- The store of a push keeps the canonical form. -/
theorem wf_storeAtSp {s : State} (hm : Memory.wf s.mem = true) (v : Byte) :
    Memory.wf (s.storeAtSp v).mem = true := wf_memWrite hm s.sp v

end Sys2Proof.Machine
end

