-- ==== Sys2Proof/Laws/Host.lean ====
section
/-! SUPPORT. What each host operation answers, by run state and input: everything load, run, stop and the load of a
program text can do. -/

namespace Sys2Proof.Machine

theorem hostLoad_idle {img : List Byte} {s : State} (hr : s.run = .idle) (h : img.length ≤ maxImage) :
    hostLoad img s = .next ({ s with mem := Memory.writeImage s.mem 0 img }, .ok) := by
  simp only [hostLoad, hr, if_neg (Nat.not_lt.mpr h)]

theorem hostLoad_tooLong {img : List Byte} {s : State} (hr : s.run = .idle) (h : maxImage < img.length) :
    hostLoad img s = .next (s, .malformedProgram) := by
  simp only [hostLoad, hr, if_pos h]

theorem hostLoad_refused {img : List Byte} {s : State} (hr : s.run ≠ .idle) :
    hostLoad img s = .refused (.loadOutsideIdle s.run) := by
  unfold hostLoad
  cases h : s.run <;> first | rfl | exact absurd h hr

theorem hostRun_idle {s : State} (hr : s.run = .idle) : hostRun s = .next (s.setRun .running) := by
  simp only [hostRun, hr]

theorem hostRun_refused {s : State} (hr : s.run ≠ .idle) : hostRun s = .refused (.runOutsideIdle s.run) := by
  unfold hostRun
  cases h : s.run <;> first | rfl | exact absurd h hr

theorem hostStop_running {s : State} (hr : s.run = .running) : hostStop s = .next s := by
  simp only [hostStop, hr]

theorem hostStop_refused {s : State} (hr : s.run ≠ .running) : hostStop s = .refused (.stopOutsideRunning s.run) := by
  unfold hostStop
  cases h : s.run <;> first | rfl | exact absurd h hr

theorem hostLoadText_some {text : List Char} {img : List Byte} {s : State} (hr : s.run = .idle)
    (h : parseProgram text = some img) : hostLoadText text s = hostLoad img s := by
  simp only [hostLoadText, hr, h]

theorem hostLoadText_none {text : List Char} {s : State} (hr : s.run = .idle) (h : parseProgram text = none) :
    hostLoadText text s = .next (s, .malformedProgram) := by
  simp only [hostLoadText, hr, h]

theorem hostLoadText_refused {text : List Char} {s : State} (hr : s.run ≠ .idle) :
    hostLoadText text s = .refused (.loadOutsideIdle s.run) := by
  unfold hostLoadText
  cases h : s.run <;> first | rfl | exact absurd h hr

end Sys2Proof.Machine
end

