-- ==== Sys2Proof/Laws/PerInstr.lean ====
section
/-! SUPPORT. One statement about every instruction as syntax, proved per constructor: the opcode byte follows the
layout `AABCDDDD` (spec/30_encoding.md R81, R83; general knowledge, assumption 6). -/

namespace Sys2Proof.Laws.OpcodeLayout

/-- The operation uses the ALU (bit `B` of R83). -/
def usesAlu (o : Op) : Bool :=
  match o with
  | .add | .sub | .mul | .div | .cmp | .and | .or | .xor | .shl | .shr | .not => true
  | .hlt | .ldi | .prn | .push | .pop | .call | .ret | .jmp | .jeq | .jne => false

/-- The operation sets PC (bit `C` of R83). -/
def setsPcBit (o : Op) : Bool :=
  match o with
  | .call | .ret | .jmp | .jeq | .jne => true
  | .hlt | .ldi | .prn | .add | .sub | .mul | .div | .cmp | .and | .or | .xor | .shl | .shr | .not | .push
  | .pop => false

/-- Bits 7:6 of the opcode are the number of operand bytes, bit 5 says whether the ALU is used, bit 4 whether PC is
set. -/
def Statement (i : Instr) : Prop :=
  (i.op.opcode >>> 6).toNat = i.operandBytes.length ∧ i.op.opcode.getLsbD 5 = usesAlu i.op ∧
    i.op.opcode.getLsbD 4 = setsPcBit i.op

/-- The layout read off the opcode map, row by row. -/
theorem row (o : Op) : (o.opcode >>> 6).toNat = o.operandCount ∧ o.opcode.getLsbD 5 = usesAlu o ∧
    o.opcode.getLsbD 4 = setsPcBit o := by
  cases o <;> decide

/-- An instruction's layout is its row's. -/
theorem of_row (i : Instr) : Statement i := by
  rw [Statement, Instr.length_operandBytes]
  exact row i.op

theorem hlt : Statement .hlt := of_row _
theorem ldi (rA : Reg) (imm : Byte) : Statement (.ldi rA imm) := of_row _
theorem prn (rA : Reg) : Statement (.prn rA) := of_row _
theorem add (rA rB : Reg) : Statement (.add rA rB) := of_row _
theorem sub (rA rB : Reg) : Statement (.sub rA rB) := of_row _
theorem mul (rA rB : Reg) : Statement (.mul rA rB) := of_row _
theorem div (rA rB : Reg) : Statement (.div rA rB) := of_row _
theorem cmp (rA rB : Reg) : Statement (.cmp rA rB) := of_row _
theorem and (rA rB : Reg) : Statement (.and rA rB) := of_row _
theorem or (rA rB : Reg) : Statement (.or rA rB) := of_row _
theorem xor (rA rB : Reg) : Statement (.xor rA rB) := of_row _
theorem shl (rA rB : Reg) : Statement (.shl rA rB) := of_row _
theorem shr (rA rB : Reg) : Statement (.shr rA rB) := of_row _
theorem not (rA : Reg) : Statement (.not rA) := of_row _
theorem push (rA : Reg) : Statement (.push rA) := of_row _
theorem pop (rA : Reg) : Statement (.pop rA) := of_row _
theorem call (rA : Reg) : Statement (.call rA) := of_row _
theorem ret : Statement .ret := of_row _
theorem jmp (rA : Reg) : Statement (.jmp rA) := of_row _
theorem jeq (rA : Reg) : Statement (.jeq rA) := of_row _
theorem jne (rA : Reg) : Statement (.jne rA) := of_row _

end Sys2Proof.Laws.OpcodeLayout
end

