-- ==== Sys2Proof/Laws/Step.lean ====
section
/-! SUPPORT. Each meaning as one next state over the shared operations, and everything a step can do. -/

namespace Sys2Proof.Machine

@[simp] theorem exec_hlt (s : State) : exec .hlt s = .next ((s.setRun .halted).advance 1) := rfl

@[simp] theorem exec_ldi (rA : Reg) (imm : Byte) (s : State) :
    exec (.ldi rA imm) s = .next ((s.setReg rA imm).advance 3) := rfl

@[simp] theorem exec_prn (rA : Reg) (s : State) :
    exec (.prn rA) s = .next ((s.emit (s.getReg rA)).advance 2) := rfl

@[simp] theorem exec_add (rA rB : Reg) (s : State) :
    exec (.add rA rB) s = .next ((s.setReg rA (s.getReg rA + s.getReg rB)).advance 3) := by
  rw [← aluAdd_eq]; rfl

@[simp] theorem exec_sub (rA rB : Reg) (s : State) :
    exec (.sub rA rB) s = .next ((s.setReg rA (s.getReg rA - s.getReg rB)).advance 3) := by
  rw [← aluSub_eq]; rfl

@[simp] theorem exec_mul (rA rB : Reg) (s : State) :
    exec (.mul rA rB) s = .next ((s.setReg rA (s.getReg rA * s.getReg rB)).advance 3) := by
  rw [← aluMul_eq]; rfl

@[simp] theorem exec_div (rA rB : Reg) (s : State) :
    exec (.div rA rB) s =
      .next (if s.getReg rB = 0 then s.raise .divisionByZero 0xA3 0
        else (s.setReg rA (s.getReg rA / s.getReg rB)).advance 3) := by
  show Host.Outcome.next (s.commitAlu rA 3 (alu .div (s.getReg rA) (s.getReg rB))) = _
  rw [alu_div]
  split <;> rfl

theorem exec_div_zero {rA rB : Reg} {s : State} (h : s.getReg rB = 0) :
    exec (.div rA rB) s = .next (s.raise .divisionByZero 0xA3 0) := by
  rw [exec_div, if_pos h]

theorem exec_div_ne {rA rB : Reg} {s : State} (h : s.getReg rB ≠ 0) :
    exec (.div rA rB) s = .next ((s.setReg rA (s.getReg rA / s.getReg rB)).advance 3) := by
  rw [exec_div, if_neg h]

@[simp] theorem exec_cmp (rA rB : Reg) (s : State) :
    exec (.cmp rA rB) s = .next ((s.setFl (if s.getReg rA = s.getReg rB then 1 else 0)).advance 3) := by
  rw [← compareFl_compare]; rfl

@[simp] theorem exec_and (rA rB : Reg) (s : State) :
    exec (.and rA rB) s = .next ((s.setReg rA (s.getReg rA &&& s.getReg rB)).advance 3) := rfl

@[simp] theorem exec_or (rA rB : Reg) (s : State) :
    exec (.or rA rB) s = .next ((s.setReg rA (s.getReg rA ||| s.getReg rB)).advance 3) := rfl

@[simp] theorem exec_xor (rA rB : Reg) (s : State) :
    exec (.xor rA rB) s = .next ((s.setReg rA (s.getReg rA ^^^ s.getReg rB)).advance 3) := rfl

@[simp] theorem exec_shl (rA rB : Reg) (s : State) :
    exec (.shl rA rB) s = .next ((s.setReg rA (s.getReg rA <<< (s.getReg rB).toNat)).advance 3) := by
  rw [← aluShl_eq]; rfl

@[simp] theorem exec_shr (rA rB : Reg) (s : State) :
    exec (.shr rA rB) s = .next ((s.setReg rA (s.getReg rA >>> (s.getReg rB).toNat)).advance 3) := by
  rw [← aluShr_eq]; rfl

@[simp] theorem exec_not (rA : Reg) (s : State) :
    exec (.not rA) s = .next ((s.setReg rA (~~~s.getReg rA)).advance 2) := by
  rw [← aluNot_eq]; rfl

@[simp] theorem exec_push (rA : Reg) (s : State) :
    exec (.push rA) s = .next ((s.decSp.storeAtSp (s.decSp.getReg rA)).advance 2) := rfl

@[simp] theorem exec_pop (rA : Reg) (s : State) :
    exec (.pop rA) s = .next ((s.setReg rA (s.memRead s.sp)).incSp.advance 2) := rfl

@[simp] theorem exec_call (rA : Reg) (s : State) :
    exec (.call rA) s = .next ((s.decSp.storeAtSp (s.pc + 2)).setPc (s.decSp.getReg rA)) := rfl

@[simp] theorem exec_ret (s : State) : exec .ret s = .next (s.setPc (s.memRead s.sp)).incSp := rfl

@[simp] theorem exec_jmp (rA : Reg) (s : State) : exec (.jmp rA) s = .next (s.setPc (s.getReg rA)) := rfl

@[simp] theorem exec_jeq (rA : Reg) (s : State) :
    exec (.jeq rA) s = .next (s.setPc (if s.flagE then s.getReg rA else s.pc + 2)) := by
  show Host.Outcome.next (branchIf s.flagE rA s) = _
  unfold branchIf
  split <;> rfl

@[simp] theorem exec_jne (rA : Reg) (s : State) :
    exec (.jne rA) s = .next (s.setPc (if s.flagE then s.pc + 2 else s.getReg rA)) := by
  show Host.Outcome.next (branchIf (!s.flagE) rA s) = _
  unfold branchIf
  cases s.flagE <;> rfl

/-- The fetch is the decoder on the three bytes at PC: a byte the operation does not have is not looked at. -/
theorem fetchDecode_eq (cfg : Config) (s : State) :
    s.fetchDecode cfg = decode cfg (s.memRead s.pc) (s.memRead (s.pc + 1)) (s.memRead (s.pc + 2)) := by
  simp only [State.fetchDecode, decode, State.opcodeByte, State.operandByte1, State.operandByte2]
  split
  · rename_i h; rw [h]
  · rename_i h; rw [h]; exact decodeOperands_unused _ _ _ _

theorem stepWith_instr {cfg : Config} {s : State} {i : Instr} (hr : s.run = .running)
    (h : s.fetchDecode cfg = .instr i) : stepWith cfg s = exec i s := by
  simp only [stepWith, hr, h]

theorem stepWith_illegal {cfg : Config} {s : State} {op : Byte} (hr : s.run = .running)
    (h : s.fetchDecode cfg = .illegalInstruction op) : stepWith cfg s = .next (s.illegalOpcode cfg op) := by
  simp only [stepWith, hr, h]

theorem stepWith_badRegister {cfg : Config} {s : State} {op b : Byte} (hr : s.run = .running)
    (h : s.fetchDecode cfg = .registerOutOfRange op b) :
    stepWith cfg s = .next (s.raise .registerOutOfRange op b) := by
  simp only [stepWith, hr, h]

/-- Everything a step that answers a next state can be: an instruction run, an illegal opcode taken, or an
out-of-range register taken; and it starts in Running. -/
theorem stepWith_cases {cfg : Config} {s t : State} (h : stepWith cfg s = .next t) :
    s.run = .running ∧
    ((∃ i, s.fetchDecode cfg = .instr i ∧ exec i s = .next t) ∨
     (∃ op, s.fetchDecode cfg = .illegalInstruction op ∧ t = s.illegalOpcode cfg op) ∨
     (∃ op b, s.fetchDecode cfg = .registerOutOfRange op b ∧ t = s.raise .registerOutOfRange op b)) := by
  unfold stepWith at h
  cases hr : s.run with
  | running =>
    refine ⟨rfl, ?_⟩
    rw [hr] at h
    cases hd : s.fetchDecode cfg with
    | instr i =>
      rw [hd] at h
      exact .inl ⟨i, rfl, h⟩
    | illegalInstruction op =>
      rw [hd] at h
      cases h
      exact .inr (.inl ⟨op, rfl, rfl⟩)
    | registerOutOfRange op b =>
      rw [hd] at h
      cases h
      exact .inr (.inr ⟨op, b, rfl, rfl⟩)
  | idle => rw [hr] at h; cases h
  | halted => rw [hr] at h; cases h
  | faulted => rw [hr] at h; cases h

/-- One more step of a run: the step, then the rest. -/
theorem core_run_next {n : Nat} {s t : State} (h : step s = .next t) :
    Sys2Proof.core.run (n + 1) s = Sys2Proof.core.run n t := by
  have hr : ∀ (M : Host.Core) (u v : M.State), M.step u = .next v → M.run (n + 1) u = M.run n v := by
    intro M u v hu
    rw [Host.Core.run, hu]
  exact hr Sys2Proof.core s t h

/-- A run that reaches a next state took a first step. -/
theorem core_run_succ {n : Nat} {s t : State} (h : Sys2Proof.core.run (n + 1) s = .next t) :
    ∃ u, step s = .next u ∧ Sys2Proof.core.run n u = .next t := by
  have hr : ∀ (M : Host.Core) (v w : M.State), M.run (n + 1) v = .next w →
      ∃ u, M.step v = .next u ∧ M.run n u = .next w := by
    intro M v w hv
    rw [Host.Core.run] at hv
    cases hs : M.step v with
    | next u => rw [hs] at hv; exact ⟨u, rfl, hv⟩
    | fault r => rw [hs] at hv; cases hv
    | refused r => rw [hs] at hv; cases hv
  exact hr Sys2Proof.core s t h

/-- What an illegal opcode leaves. -/
theorem illegalOpcode_cases (cfg : Config) (s : State) (op : Byte) :
    (cfg.illegalOpcodeMode = .fault ∧ s.illegalOpcode cfg op = s.raise .illegalInstruction op 0) ∨
    (cfg.illegalOpcodeMode = .stall ∧ s.illegalOpcode cfg op = s) := by
  unfold State.illegalOpcode
  cases cfg.illegalOpcodeMode with
  | fault => exact .inl ⟨rfl, rfl⟩
  | stall => exact .inr ⟨rfl, rfl⟩

/-- Every meaning answers a next state. -/
theorem exec_next (i : Instr) (s : State) : ∃ t, exec i s = .next t := by
  cases i <;> exact ⟨_, rfl⟩

/-- A meaning keeps the canonical form of memory. -/
theorem exec_wf {i : Instr} {s t : State} (h : exec i s = .next t) (hm : Memory.wf s.mem = true) :
    Memory.wf t.mem = true := by
  cases i with
  | push rA =>
    rw [exec_push] at h
    cases h
    exact wf_storeAtSp (s := s.decSp) hm _
  | call rA =>
    rw [exec_call] at h
    cases h
    exact wf_storeAtSp (s := s.decSp) hm _
  | div rA rB =>
    rw [exec_div] at h
    cases h
    split <;> exact hm
  | hlt => rw [exec_hlt] at h; cases h; exact hm
  | ldi rA imm => rw [exec_ldi] at h; cases h; exact hm
  | prn rA => rw [exec_prn] at h; cases h; exact hm
  | add rA rB => rw [exec_add] at h; cases h; exact hm
  | sub rA rB => rw [exec_sub] at h; cases h; exact hm
  | mul rA rB => rw [exec_mul] at h; cases h; exact hm
  | cmp rA rB => rw [exec_cmp] at h; cases h; exact hm
  | and rA rB => rw [exec_and] at h; cases h; exact hm
  | or rA rB => rw [exec_or] at h; cases h; exact hm
  | xor rA rB => rw [exec_xor] at h; cases h; exact hm
  | shl rA rB => rw [exec_shl] at h; cases h; exact hm
  | shr rA rB => rw [exec_shr] at h; cases h; exact hm
  | not rA => rw [exec_not] at h; cases h; exact hm
  | pop rA => rw [exec_pop] at h; cases h; exact hm
  | ret => rw [exec_ret] at h; cases h; exact hm
  | jmp rA => rw [exec_jmp] at h; cases h; exact hm
  | jeq rA => rw [exec_jeq] at h; cases h; exact hm
  | jne rA => rw [exec_jne] at h; cases h; exact hm

end Sys2Proof.Machine
end

