-- ==== Sys2Proof/Tests/Slice0.lean ====
section
/-! SUPPORT. Tests of the model. Expected values come from spec/95_test_vectors.md (named V-…) or from the examples and
corner cases of the rules; each is one step on a small state. After them, for every statement of
Certificates/Slice0/Obligations.lean that has hypotheses, a concrete state and operands that meet them. -/

namespace Sys2Proof.Tests

open Sys2Proof.Machine

/-- A Running core at `pc` with the bytes of a word at it (first byte lowest). -/
def core (pc : Byte) (w : Nat) : State := (State.reset.setPc pc).placeWord 24 w

/-- The state an outcome leaves, if it is a next state. -/
def after (o : Host.Outcome State Fault Refusal) : Option State :=
  match o with
  | .next t => some t
  | .fault _ => none
  | .refused _ => none

/-- What is seen of the state after one step. -/
def see {α : Type} (s : State) (f : State → α) : Option α := (after (step s)).map f

/-- The fault record as the spec's four numbers (R33). -/
def record (t : State) : Option (Byte × Byte × Byte × Byte) := t.fault.map (fun r => (r.cause.code, r.pc, r.opcode, r.detail))

/-- The reference machine's parameters (R8, R9, R10). -/
def reference : Config := ⟨0x00, false, .stall⟩

/-! ### Well-formedness: the one check refuses an ext instruction where `EXT_ALU = false` -/

theorem test_wellFormed_refuses_ext : Instr.wellFormed reference (.sub 0 1) = false := by decide

theorem test_wellFormed_takes_base : Instr.wellFormed reference (.add 0 1) = true := by decide

theorem test_wellFormed_takes_ext : Instr.wellFormed Config.hardware (.not 7) = true := by decide

/-! ### Decoding: words written bit by bit from R82 and R86 -/

theorem test_decode_hlt : decodeTableWord 8 0b00000001 = some .hlt := by decide

theorem test_decode_ldi : decodeTableWord 24 0b00001000_00000000_10000010 = some (.ldi 0 8) := by decide

theorem test_decode_prn : decodeTableWord 16 0b00000000_01000111 = some (.prn 0) := by decide

theorem test_decode_add : decodeTableWord 24 0b00000001_00000000_10100000 = some (.add 0 1) := by decide

theorem test_decode_sub : decodeTableWord 24 0b00000111_00000010_10100001 = some (.sub 2 7) := by decide

theorem test_decode_mul : decodeTableWord 24 0b00000001_00000110_10100010 = some (.mul 6 1) := by decide

theorem test_decode_div : decodeTableWord 24 0b00000001_00000000_10100011 = some (.div 0 1) := by decide

theorem test_decode_cmp : decodeTableWord 24 0b00000011_00000101_10100111 = some (.cmp 5 3) := by decide

theorem test_decode_and : decodeTableWord 24 0b00000001_00000000_10101000 = some (.and 0 1) := by decide

theorem test_decode_or : decodeTableWord 24 0b00000001_00000000_10101010 = some (.or 0 1) := by decide

theorem test_decode_xor : decodeTableWord 24 0b00000001_00000000_10101011 = some (.xor 0 1) := by decide

theorem test_decode_shl : decodeTableWord 24 0b00000001_00000000_10101100 = some (.shl 0 1) := by decide

theorem test_decode_shr : decodeTableWord 24 0b00000001_00000000_10101101 = some (.shr 0 1) := by decide

theorem test_decode_not : decodeTableWord 16 0b00000010_01101001 = some (.not 2) := by decide

theorem test_decode_push : decodeTableWord 16 0b00000111_01000101 = some (.push 7) := by decide

theorem test_decode_pop : decodeTableWord 16 0b00000001_01000110 = some (.pop 1) := by decide

theorem test_decode_call : decodeTableWord 16 0b00000001_01010000 = some (.call 1) := by decide

theorem test_decode_ret : decodeTableWord 8 0b00010001 = some .ret := by decide

theorem test_decode_jmp : decodeTableWord 16 0b00000011_01010100 = some (.jmp 3) := by decide

theorem test_decode_jeq : decodeTableWord 16 0b00000011_01010101 = some (.jeq 3) := by decide

theorem test_decode_jne : decodeTableWord 16 0b00000011_01010110 = some (.jne 3) := by decide

/-- R91: LD, ST, INC, DEC, MOD, PRA, INT, IRET, JGT, JLT, JLE, JGE and NOP of LS-8 are illegal. -/
theorem test_decode_absent :
    [0x00, 0x83, 0x84, 0x65, 0x66, 0xA4, 0x48, 0x52, 0x13, 0x57, 0x58, 0x59, 0x5A].all
      (fun b => decodeOpcode Config.hardware (BitVec.ofNat 8 b) == .unknownOp (BitVec.ofNat 8 b)) = true := by decide

/-- R90: 21 different opcodes are defined with `EXT_ALU = true`, so that 235 of the 256 byte values are illegal. -/
theorem test_opcode_count : (Op.all.map Op.opcode).Nodup ∧ Op.all.length = 256 - 235 := by decide

/-- V-ILL4: SUB is illegal with `EXT_ALU = false`. -/
theorem test_ext_disabled : decode reference 0xA1 0 1 = .illegalInstruction 0xA1 := by decide

/-! ### Machine control, load and output -/

/-- V-HLT2. -/
theorem test_hlt_wraps : see (core 0xFF 0x01) (fun t => (t.run, t.pc)) = some (.halted, 0) := by decide

/-- V-LDI5: LDI at 0xFE reads its operands from 0xFF and 0x00. -/
theorem test_ldi_wraps : see (core 0xFE 0x820082) (fun t => (t.getReg 0, t.pc)) = some (0x82, 0x01) := by decide

/-- V-LDI4. -/
theorem test_ldi_bad_register :
    see (core 0 0x010882) record = some (some (2, 0x00, 0x82, 8)) ∧
    see (core 0 0x010882) (fun t => (t.regs, t.pc)) = some (#v[0, 0, 0, 0, 0, 0, 0, 0xF4], 0) := by decide

/-- V-PRN3. -/
theorem test_prn_sp : see (core 0 0x0747) (fun t => (t.out, t.pc)) = some ([244], 2) := by decide

/-- V-PRN4. -/
theorem test_prn_bad_register :
    see (core 0x30 0xFF47) (fun t => (record t, t.out)) = some (some (2, 0x30, 0x47, 0xFF), []) := by decide

/-! ### ALU -/

/-- V-ADD2, V-ADD4. -/
theorem test_add_wraps :
    see (((core 0x10 0x0100A0).setReg 0 200).setReg 1 100) (fun t => (t.getReg 0, t.pc)) = some (44, 0x13) ∧
    see ((core 0x10 0x0000A0).setReg 0 0x80) (fun t => (t.getReg 0, t.fl)) = some (0, 0) := by decide

/-- V-SUB2, V-SUB3. -/
theorem test_sub_order :
    see (((core 0x10 0x0100A1).setReg 0 0).setReg 1 1) (fun t => t.getReg 0) = some 255 ∧
    see (((core 0x10 0x0100A1).setReg 0 3).setReg 1 5) (fun t => (t.getReg 0, t.getReg 1)) = some (254, 5) := by decide

/-- V-MUL3. -/
theorem test_mul_truncates :
    see (((core 0x10 0x0100A2).setReg 0 255).setReg 1 255) (fun t => t.getReg 0) = some 1 := by decide

/-- V-DIV1. -/
theorem test_div_rounds :
    see (((core 0x10 0x0100A3).setReg 0 200).setReg 1 7) (fun t => (t.getReg 0, t.pc)) = some (28, 0x13) := by decide

/-- V-DIV5. -/
theorem test_div_by_zero :
    see ((core 0x10 0x0100A3).setReg 0 7) record = some (some (3, 0x10, 0xA3, 0)) ∧
    see ((core 0x10 0x0100A3).setReg 0 7) (fun t => (t.getReg 0, t.pc, t.run)) = some (7, 0x10, .faulted) := by decide

/-- R227: `DIV` with `b1 = 9` and a zero divisor reports RegisterOutOfRange with detail 9. -/
theorem test_div_priority : see (core 0x10 0x0109A3) record = some (some (2, 0x10, 0xA3, 9)) := by decide

/-- V-LOG1. -/
theorem test_and : see (((core 0 0x0100A8).setReg 0 0xF0).setReg 1 0x3C) (fun t => t.getReg 0) = some 0x30 := by decide

/-- V-LOG4. -/
theorem test_or : see (((core 0 0x0100AA).setReg 0 0x12).setReg 1 0x21) (fun t => t.getReg 0) = some 0x33 := by decide

/-- V-LOG5. -/
theorem test_xor : see (((core 0 0x0100AB).setReg 0 0xFF).setReg 1 0x0F) (fun t => t.getReg 0) = some 0xF0 := by decide

/-- V-LOG9. -/
theorem test_not_sp : see (core 0 0x0769) (fun t => (t.sp, t.pc)) = some (0x0B, 2) := by decide

/-- V-SH2, V-SH5. -/
theorem test_shl :
    see (((core 0 0x0100AC).setReg 0 0x81).setReg 1 1) (fun t => t.getReg 0) = some 0x02 ∧
    see (((core 0 0x0100AC).setReg 0 0xFF).setReg 1 255) (fun t => t.getReg 0) = some 0x00 := by decide

/-- V-SH10, V-SH11. -/
theorem test_shr :
    see (((core 0 0x0100AD).setReg 0 0x81).setReg 1 1) (fun t => t.getReg 0) = some 0x40 ∧
    see (((core 0 0x0100AD).setReg 0 0xFF).setReg 1 8) (fun t => t.getReg 0) = some 0x00 := by decide

/-! ### Stack, call, return -/

/-- V-STK5. -/
theorem test_push_sp : see (core 0 0x0745) (fun t => (t.sp, t.memRead 0xF3)) = some (0xF3, 0xF3) := by decide

/-- V-STK3. -/
theorem test_push_wraps :
    see (((core 0 0x0045).setSp 0).setReg 0 0x77) (fun t => (t.sp, t.memRead 0xFF)) = some (0xFF, 0x77) := by decide

/-- V-STK7. -/
theorem test_pop_sp : see (((core 0 0x0746).setSp 0xF3).memWrite 0xF3 0x10) (fun t => t.sp) = some 0x11 := by decide

/-- V-STK4. -/
theorem test_pop_wraps :
    see (((core 0 0x0046).setSp 0xFF).memWrite 0xFF 0x77) (fun t => (t.getReg 0, t.sp)) = some (0x77, 0) := by decide

/-- V-CR3. -/
theorem test_call_wraps :
    see ((core 0xFE 0x0250).setReg 2 0x40) (fun t => (t.memRead 0xF3, t.sp, t.pc)) = some (0x00, 0xF3, 0x40) := by decide

/-- V-CR4. -/
theorem test_call_sp : see (core 0x10 0x0750) (fun t => (t.sp, t.memRead 0xF3, t.pc)) = some (0xF3, 0x12, 0xF3) := by decide

/-- V-CR2, V-CR5. -/
theorem test_ret :
    see (((core 0x0B 0x11).setSp 0xF3).memWrite 0xF3 5) (fun t => (t.pc, t.sp)) = some (0x05, 0xF4) ∧
    see (((core 0x0B 0x11).setSp 0xFF).memWrite 0xFF 0x21) (fun t => (t.pc, t.sp)) = some (0x21, 0) := by decide

/-! ### Compare and jump -/

/-- V-BR1. -/
theorem test_cmp_equal :
    see (((core 0 0x0100A7).setReg 0 5).setReg 1 5) (fun t => (t.fl, t.pc)) = some (0x01, 3) := by decide

/-- V-BR2, V-BR3: no L bit and no G bit. -/
theorem test_cmp_differ :
    see (((core 0 0x0100A7).setReg 0 5).setReg 1 6) (fun t => t.fl) = some 0x00 ∧
    see (((core 0 0x0100A7).setReg 0 6).setReg 1 5) (fun t => t.fl) = some 0x00 := by decide

/-- V-BR5. -/
theorem test_jmp : see ((core 0x40 0x0354).setReg 3 0x0C) (fun t => (t.pc, t.fl)) = some (0x0C, 0) := by decide

/-- V-BR6, V-BR7. -/
theorem test_jeq :
    see (((core 0x10 0x0355).setReg 3 0x20).setFl 1) (fun t => t.pc) = some 0x20 ∧
    see ((core 0x10 0x0355).setReg 3 0x20) (fun t => t.pc) = some 0x12 := by decide

/-- V-BR11: the index is checked even when the jump is not taken. -/
theorem test_jeq_bad_register : see (core 0x10 0x0C55) record = some (some (2, 0x10, 0x55, 12)) := by decide

/-- V-BR8, V-BR10. -/
theorem test_jne :
    see ((core 0x14 0x0356).setReg 3 0x0C) (fun t => t.pc) = some 0x0C ∧
    see ((core 0xFF 0x0356).setFl 1) (fun t => t.pc) = some 0x01 := by decide

/-! ### Illegal opcodes, reset, host -/

/-- V-ILL2. -/
theorem test_illegal : see (core 0x08 0x010084) (fun t => (record t, t.pc)) = some (some (1, 0x08, 0x84, 0), 0x08) := by
  decide

/-- V-ILL5. -/
theorem test_stall : after (stepWith reference (core 0x20 0xFF)) = some (core 0x20 0xFF) := by decide

/-- V-LOAD3: an empty image; the first step faults at 0. -/
theorem test_empty_image :
    ((launch Config.hardware []).bind (fun s => after (step s))).map record = some (some (1, 0, 0, 0)) := by decide

/-- V-LOAD4. -/
theorem test_program_text :
    parseProgram "10000010 # LDI R0,8\n\n   # comment only\n00000000\n1000".toList = some [0x82, 0x00, 0x08] := by decide

/-- V-LOAD5, V-LOAD6, V-LOAD7. -/
theorem test_program_text_malformed :
    parseProgram "10000002".toList = none ∧ parseProgram "100000000".toList = none ∧
    parseProgram "1".toList = some [0x01] := by decide

/-- V-PRN2, V-PRN3: the host's lines. -/
theorem test_render : renderOutput [8, 0, 244] = "8\n0\n244\n".toList := by decide

/-- R93's spellings. -/
theorem test_assembly :
    readAsm "LDI R0,8".toList = some (.ldi 0 8) ∧ readAsm "ADD SP,R1".toList = some (.add 7 1) ∧
    readAsm "LDI R1,0xFe".toList = some (.ldi 1 254) ∧ readAsm "LDI R1,0b11".toList = some (.ldi 1 3) ∧
    readAsm "LDI R1,256".toList = none ∧ readAsm "PUSH R8".toList = none ∧ readAsm "NOP".toList = none := by decide

/-! ### Witnesses: for each statement with hypotheses, a state and operands that meet them -/

theorem witness_DecodeOfEncode : Instr.wellFormed Config.hardware (.shr 7 0) = true ∧
    Instr.wellFormed reference (.ldi 0 255) = true := by decide

theorem witness_EncodeOfDecode : decode Config.hardware 0xAD 7 0 = .instr (.shr 7 0) ∧
    decode reference 0x82 7 0xFF = .instr (.ldi 7 0xFF) ∧ decode reference 0x11 0xAA 0xBB = .instr .ret := by decide

theorem witness_OpcodeDecoder : (∀ o : Op, ¬(o.opcode = 0x00 ∧ o.enabled Config.hardware = true)) ∧
    (∀ o : Op, ¬(o.opcode = 0xA1 ∧ o.enabled reference = true)) := by
  constructor <;> intro o <;> cases o <;> decide

theorem witness_KnownOpcodes : decodeOpcode reference 0x01 = .knownOp .hlt ∧
    decodeOpcode Config.hardware 0xA1 = .knownOp .sub := by decide

/-- At the top of memory, with the operand bytes at 0xFF and 0x00. -/
theorem witness_StepRunsDecoded :
    let s := core 0xFE 0x0200A0
    s.run = .running ∧
      decode Config.hardware (s.memRead s.pc) (s.memRead (s.pc + 1)) (s.memRead (s.pc + 2)) = .instr (.add 0 2) := by
  decide

theorem witness_StepRunsEncoded :
    let s := core 0xFE 0x0200A0
    s.run = .running ∧ Instr.wellFormed Config.hardware (.add 0 2) = true ∧
      ∀ (k : Nat) (h : k < (encode (.add 0 2)).length),
        s.memRead (s.pc + BitVec.ofNat 8 k) = (encode (.add 0 2))[k] := by
  decide

theorem witness_StepPossible : State.reset.run = .idle ∧ (core 0 1).run = .running ∧
    ((core 0 1).setRun .halted).run ≠ .running ∧ ((core 0 1).setRun .faulted).run ≠ .running := by decide

theorem witness_Advance : exec (.push 7) (core 0xFF 0) = .next ((pushReg 7 (core 0xFF 0)).advance 2) ∧
    (core 0xFF 0).run ≠ .faulted ∧ ((pushReg 7 (core 0xFF 0)).advance 2).run ≠ .faulted ∧
    setsPc (.push 7) = false := ⟨rfl, by decide, by decide, by decide⟩

theorem witness_PlacedWord : decodeTableWord 16 0x0745 = some (.push 7) := by decide

theorem witness_IllegalOpcode : (core 0 0x00).run = .running ∧
    (∀ o : Op, o.enabled Config.hardware = true → o.opcode ≠ (core 0 0x00).memRead 0) ∧
    (∀ o : Op, o.enabled reference = true → o.opcode ≠ (core 0 0xA1).memRead 0) ∧
    Config.hardware.illegalOpcodeMode = .fault ∧ reference.illegalOpcodeMode = .stall := by
  refine ⟨by decide, fun o => ?_, fun o => ?_, rfl, rfl⟩ <;> cases o <;> decide

/-- The boundary bytes of each clause: `b1 = 8`; `b1 = 7` and `b2 = 8`; both 7; LDI with `b1 = 7` and any `b2`. -/
theorem witness_OutOfRange :
    decodeOpcode Config.hardware ((core 0 0x0008A3).memRead 0) = .knownOp .div ∧
    8 ≤ ((core 0 0x0008A3).memRead 1).toNat ∧
    ((core 0 0x0807A3).memRead 1).toNat < 8 ∧ 8 ≤ ((core 0 0x0807A3).memRead 2).toNat ∧
    ((core 0 0x0707A3).memRead 1).toNat < 8 ∧ ((core 0 0x0707A3).memRead 2).toNat < 8 ∧
    decodeOpcode Config.hardware ((core 0 0xFF0782).memRead 0) = .knownOp .ldi ∧
    ((core 0 0xFF0782).memRead 1).toNat < 8 ∧
    decodeOpcode Config.hardware ((core 0 0xFFFF11).memRead 0) = .knownOp .ret := by decide

theorem witness_DivisionByZero : (core 0 0x0100A3).getReg 1 = 0 := by decide

/-- One state for each of the three causes. -/
theorem witness_FaultsPrecise :
    see (core 0 0x00) (fun t => t.run) = some .faulted ∧ see (core 0 0x0882) (fun t => t.run) = some .faulted ∧
    see (core 0 0x0000A3) (fun t => t.run) = some .faulted := by decide

theorem witness_OnlyReset :
    see (core 0 0x00) (fun t => t.run) = some .faulted ∧
    ((core 0 1).raise .illegalInstruction 0 0).run = .faulted ∧
    act Config.hardware .reset ((core 0 1).raise .illegalInstruction 0 0) = .next State.reset ∧
    act Config.hardware .debugRead ((core 0 1).raise .illegalInstruction 0 0) =
      .next ((core 0 1).raise .illegalInstruction 0 0) := ⟨by decide, rfl, rfl, rfl⟩

/-- `b1 = 8` and `b1 = 7`. -/
theorem witness_LdiBytes : (core 0 0xFF0882).run = .running ∧ (core 0 0xFF0882).memRead 0 = 0x82 ∧
    8 ≤ ((core 0 0xFF0882).memRead 1).toNat ∧ ((core 0 0xFF0782).memRead 1).toNat = (7 : Reg).val := by decide

theorem witness_PrnBytes : (core 0 0x0847).run = .running ∧ (core 0 0x0847).memRead 0 = 0x47 ∧
    8 ≤ ((core 0 0x0847).memRead 1).toNat ∧ ((core 0 0x0747).memRead 1).toNat = (7 : Reg).val ∧
    (after (step (core 0 0x0747))).isSome = true := by decide

theorem witness_DivQuotient : ((core 0 0).setReg 1 255).getReg 1 ≠ 0 := by decide

theorem witness_AluFamily : (Instr.div 0 1 = .div 0 1 → ((core 0 0).setReg 1 1).getReg 1 ≠ 0) ∧ (0 : Reg) ≠ 7 := by decide

theorem witness_CallThenReturn :
    ∃ t, exec (.call 1) (core 3 0x0150) = .next t ∧ t.sp = 0xF3 ∧ t.memRead t.sp = 5 := ⟨_, rfl, by decide, by decide⟩

theorem witness_CmpSets : ((core 0 0).setReg 0 5).getReg 0 ≠ (core 0 0).getReg 1 ∧
    (core 0 0).getReg 0 = (core 0 0).getReg 1 := by decide

theorem witness_BranchFollows :
    (∃ t, exec (.cmp 0 1) (core 0 0x0100A7) = .next t ∧ t.fl = 1) ∧
    ((∀ rA rB, Instr.hlt ≠ .cmp rA rB) ∧ ∃ t, exec .hlt (core 0 1) = .next t) ∧
    (core 0 0).fl = (State.resetWith Config.hardware).fl :=
  ⟨⟨_, rfl, by decide⟩, ⟨fun _ _ => nofun, _, rfl⟩, by decide⟩

theorem witness_OnlyCompare :
    (∃ t, exec (.add 0 1) (core 0 0) = .next t) ∧ (∃ t, exec (.cmp 0 1) (core 0 0) = .next t) ∧
    (∃ t, exec (.jeq 0) (core 0 0) = .next t) ∧ (0xFE : Byte).getLsbD 0 = (core 0 0).fl.getLsbD 0 :=
  ⟨⟨_, rfl⟩, ⟨_, rfl⟩, ⟨_, rfl⟩, by decide⟩

theorem witness_ReservedFlags : (0xFE : Byte).getLsbD 0 = (core 0 0x0055).fl.getLsbD 0 ∧
    Sys2Proof.core.run 1 (core 0 0x0055) = .next ((core 0 0x0055).advance 2) := ⟨by decide, rfl⟩

/-- Halted; Running by an instruction; Running by a stall; Faulted. -/
theorem witness_StepsFollow :
    see (core 0 0x01) (fun t => t.run) = some .halted ∧ see (core 0 0x0047) (fun t => t.run) = some .running ∧
    (after (stepWith reference (core 0 0))).map (fun t => t.run) = some .running ∧
    see (core 0 0x00) (fun t => t.run) = some .faulted := by decide

/-- Every action answers a next state somewhere; the run states that the clauses ask for. -/
theorem witness_HostActions :
    State.reset.run = .idle ∧ (core 0 0).run = .running ∧
    (after (act Config.hardware .reset (core 0 0))).isSome = true ∧
    (after (act Config.hardware (.load [1]) State.reset)).isSome = true ∧
    (after (act Config.hardware .run State.reset)).isSome = true ∧
    (after (act Config.hardware .step (core 0 0))).isSome = true ∧
    (after (act Config.hardware .stop (core 0 0))).isSome = true ∧
    (after (act Config.hardware .debugRead (core 0 0))).isSome = true := by decide

theorem witness_OutputAppendOnly : (after (step (core 0 0x0747))).map (fun t => t.out) = some [0xF4] ∧
    (after (step (core 0 0x0782))).map (fun t => t.out) = some [] := by decide

/-- One instruction for each clause about the run state and the fault record: neither HLT nor a division by zero; HLT;
DIV by zero. -/
theorem witness_OutputUnread :
    (∃ t, exec (.div 0 7) (core 0 0) = .next t) ∧ (core 0 0).getReg 7 ≠ 0 ∧
    (∃ t, exec .hlt (core 0 0) = .next t) ∧
    (∃ t, exec (.div 0 1) (core 0 0) = .next t) ∧ (core 0 0).getReg 1 = 0 :=
  ⟨⟨_, rfl⟩, by decide, ⟨_, rfl⟩, ⟨_, rfl⟩, by decide⟩

theorem witness_Hangs :
    (core 0 0xFF).run = .running ∧ reference.illegalOpcodeMode = .stall ∧
    (∀ o : Op, o.enabled reference = true → o.opcode ≠ (core 0 0xFF).memRead 0) ∧
    ((core 0x40 0x0354).setReg 3 0x40).memRead 0x40 = 0x54 ∧
    ((core 0x40 0x0354).setReg 3 0x40).memRead 0x41 = registerByte 3 ∧
    ((core 0x40 0x0354).setReg 3 0x40).getReg 3 = 0x40 := by
  refine ⟨by decide, rfl, fun o => ?_, by decide, by decide, by decide⟩
  cases o <;> decide

theorem witness_ReadAfterWrite : ∀ w ∈ [((0xFF : Byte), (7 : Byte)), (0x01, 0)], w.1 ≠ 0x00 := by
  simp

/-- POP with other memory outside 0, 1 and SP: the cells read agree, another cell does not. -/
theorem witness_StepAccesses :
    let s := (core 0 0x0046).memWrite 0xF4 9
    let m := Memory.write s.mem 0x80 0x55
    (after (step s)).isSome = true ∧ s.readSet Config.hardware = [0, 1, 0xF4] ∧
      (∀ a ∈ s.readSet Config.hardware, Memory.read m a.toNat = s.memRead a) ∧
      Memory.read m 0x80 ≠ s.memRead 0x80 := by decide

theorem witness_StepAccesses_write : (core 0 0x0045).writeSet Config.hardware = [0xF3] := by decide

theorem witness_StepKeepsInvariant : (core 0 0x0745).Inv ∧ (after (step (core 0 0x0745))).isSome = true :=
  ⟨⟨by decide, .inl rfl, by simp [State.faultLegal, core, State.placeWord, State.reset, State.resetWith]⟩, by decide⟩

/-- Reset, load of `LDI R0,8`, run, step, stop. -/
theorem witness_HostSequence :
    ([HostAction.reset, .load [0x82, 0, 8], .run, .step, .stop].foldlM
      (fun u a => match act Config.hardware a u with | .next v => some v | .fault _ => none | .refused _ => none)
      State.reset).map (fun t : State => (t.getReg 0, t.pc)) = some (8, 3) := by decide

/-- Images of 256 and of 257 bytes, and a state outside Idle. -/
theorem witness_Load : State.reset.run = .idle ∧ (List.replicate 256 (0 : Byte)).length ≤ 256 ∧
    256 < (List.replicate 257 (0 : Byte)).length ∧ (core 0 0).run ≠ .idle := by
  refine ⟨rfl, ?_, ?_, by decide⟩ <;> rw [List.length_replicate]
  exact Nat.lt_succ_self 256

/-- The texts of images of 256 and of 257 bytes are `witness_Load`'s; here a malformed text, in Idle and in Running. -/
theorem witness_ProgramText : State.reset.run = .idle ∧ parseProgram "2".toList = none ∧ (core 0 0).run ≠ .idle := by
  decide

theorem witness_Render : (decimalDigits 0).head? = some '0' := by decide

end Sys2Proof.Tests
end

section
/-! PROOF. spec/10_state.md R29 over one case split: the meanings commute with overwriting FL, so long as a conditional
jump still sees the same bit E; CMP alone overwrites FL itself. -/

namespace Sys2Proof.Machine

/-- Overwriting FL with the value it holds changes nothing. -/
@[simp] theorem setFl_fl_self (s : State) : s.setFl s.fl = s := rfl

/-- Overwriting FL twice is overwriting it once. -/
@[simp] theorem setFl_setFl (s : State) (f g : Byte) : (s.setFl f).setFl g = s.setFl g := rfl

/-- CMP does not read FL: its write covers whatever FL held. -/
theorem exec_cmp_setFl (rA rB : Reg) (s : State) (f : Byte) :
    exec (.cmp rA rB) (s.setFl f) = exec (.cmp rA rB) s := by
  rw [exec_cmp, exec_cmp, setFl_setFl]
  rfl

/-- Every meaning but CMP's commutes with overwriting FL; only the conditional jumps need bit E to stay, which is all
they read of FL. -/
theorem exec_setFl {i : Instr} {s t : State} {f : Byte} (hcmp : ∀ rA rB, i ≠ .cmp rA rB)
    (hE : (∃ rA, i = .jeq rA ∨ i = .jne rA) → f.getLsbD 0 = s.fl.getLsbD 0) (h : exec i s = .next t) :
    exec i (s.setFl f) = .next (t.setFl f) := by
  cases i with
  | cmp rA rB => exact absurd rfl (hcmp rA rB)
  | jeq rA =>
    have hflag : (s.setFl f).flagE = s.flagE := hE ⟨rA, .inl rfl⟩
    rw [exec_jeq] at h ⊢
    cases h
    rw [hflag]
    rfl
  | jne rA =>
    have hflag : (s.setFl f).flagE = s.flagE := hE ⟨rA, .inr rfl⟩
    rw [exec_jne] at h ⊢
    cases h
    rw [hflag]
    rfl
  | div rA rB =>
    rw [exec_div] at h ⊢
    cases h
    rw [getReg_setFl]
    split <;> rfl
  | _ =>
    -- No remaining meaning mentions FL, so the two orders of updates are the same record.
    cases h
    rfl

/-- Every instruction but CMP leaves FL as it was: overwriting FL with its own value changes nothing before the
instruction, hence nothing after it. -/
theorem exec_fl {i : Instr} {s t : State} (hcmp : ∀ rA rB, i ≠ .cmp rA rB) (h : exec i s = .next t) :
    t.fl = s.fl := by
  have hself := exec_setFl (f := s.fl) hcmp (fun _ => rfl) h
  rw [setFl_fl_self, h] at hself
  rw [Host.Outcome.next.inj hself, setFl_fl]

end Sys2Proof.Machine

open Sys2Proof Sys2Proof.Machine

/-- Settles O37: an instruction other than CMP commutes with overwriting FL (`exec_setFl`), which gives both what the
others do not read and, at the value FL already holds, that they do not write it (`exec_fl`). -/
theorem onlyCompareWritesAndBranchesReadFlags : Obligations.OnlyCompareWritesAndBranchesReadFlags := by
  intro i s t f h
  refine ⟨fun hcmp => exec_fl hcmp h, ?cmpReadsNoFlag, ?othersReadNoFlag, ?jumpsReadE⟩
  case cmpReadsNoFlag =>
    rintro ⟨rA, rB, rfl⟩
    rw [exec_cmp_setFl, h]
  case othersReadNoFlag =>
    intro hcmp hjump
    refine exec_setFl hcmp ?_ h
    rintro ⟨rA, rfl | rfl⟩
    · exact absurd rfl (hjump rA).1
    · exact absurd rfl (hjump rA).2
  case jumpsReadE =>
    rintro ⟨rA, rfl | rfl⟩ hE <;> exact exec_setFl (fun _ _ => nofun) (fun _ => hE) h

end

section
/-! PROOF. spec/20_memory.md R52 and R53. A write is seen until the next write of its cell. A step is compared with the
same step over another memory that agrees on the cells the access table reads: its fetch decodes the same instruction,
every meaning commutes with replacing memory, and PUSH and CALL store the same value at the same cell. -/

namespace Sys2Proof.Machine

/-- Writes of other cells leave a cell as it was. -/
theorem memRead_foldl_memWrite {a : Byte} {ws : List (Byte × Byte)} (h : ∀ w ∈ ws, w.1 ≠ a) (s : State) :
    (ws.foldl (fun u w => u.memWrite w.1 w.2) s).memRead a = s.memRead a := by
  induction ws generalizing s with
  | nil => rfl
  | cons w ws ih =>
    obtain ⟨hw, hws⟩ := List.forall_mem_cons.mp h
    rw [List.foldl_cons, ih hws, memRead_memWrite, if_neg hw.symm]

/-- A state over another memory. -/
def State.withMem (s : State) (m : Memory) : State := { s with mem := m }

@[simp] theorem withMem_mem (s : State) (m : Memory) : (s.withMem m).mem = m := rfl
@[simp] theorem withMem_run (s : State) (m : Memory) : (s.withMem m).run = s.run := rfl
@[simp] theorem withMem_mem_self (s : State) : s.withMem s.mem = s := rfl
@[simp] theorem getReg_withMem (s : State) (m : Memory) (r : Reg) : (s.withMem m).getReg r = s.getReg r := rfl
@[simp] theorem sp_withMem (s : State) (m : Memory) : (s.withMem m).sp = s.sp := rfl
@[simp] theorem memRead_withMem (s : State) (m : Memory) (a : Byte) :
    (s.withMem m).memRead a = Memory.read m a.toNat := rfl
@[simp] theorem raise_withMem (s : State) (m : Memory) (c : Cause) (op d : Byte) :
    (s.withMem m).raise c op d = (s.raise c op d).withMem m := rfl

@[simp] theorem decSp_withMem (s : State) (m : Memory) : (s.withMem m).decSp = s.decSp.withMem m := rfl
@[simp] theorem storeAtSp_withMem (s : State) (m : Memory) (v : Byte) :
    (s.withMem m).storeAtSp v = (s.storeAtSp v).withMem (Memory.write m s.sp.toNat v) := rfl

/-- The memory `m` reads as that of `s` does at the cells listed. -/
def State.agreesOn (s : State) (as : List Byte) (m : Memory) : Prop :=
  ∀ a ∈ as, Memory.read m a.toNat = s.memRead a

/-- A state's own memory agrees with it everywhere. -/
theorem agreesOn_mem (s : State) (as : List Byte) : s.agreesOn as s.mem := fun _ _ => rfl

/-- Taking an illegal opcode touches no memory. -/
theorem illegalOpcode_withMem (cfg : Config) (s : State) (m : Memory) (op : Byte) :
    (s.withMem m).illegalOpcode cfg op = (s.illegalOpcode cfg op).withMem m := by
  unfold State.illegalOpcode
  cases cfg.illegalOpcodeMode <;> rfl

/-- The fetch reads the cell at PC whatever it decodes. -/
theorem pc_mem_fetchSet (cfg : Config) (s : State) : s.pc ∈ s.fetchSet cfg := by
  unfold State.fetchSet
  repeat' split
  all_goals exact List.mem_cons_self

/-- The fetch of an operation with an operand byte reads the cell after PC. -/
theorem operand1_mem_fetchSet {cfg : Config} {s : State} {o : Op} (hdec : decodeOpcode cfg s.opcodeByte = .knownOp o)
    (hn : o.operandCount ≥ 1) : s.pc + 1 ∈ s.fetchSet cfg := by
  have hle : o.operandCount ≤ 2 := by cases o <;> decide
  obtain h1 | h2 : o.operandCount = 1 ∨ o.operandCount = 2 := by omega
  · simp [State.fetchSet, hdec, h1]
  · simp [State.fetchSet, hdec, h2]

/-- The fetch of an operation with two operand bytes reads the second cell after PC. -/
theorem operand2_mem_fetchSet {cfg : Config} {s : State} {o : Op} (hdec : decodeOpcode cfg s.opcodeByte = .knownOp o)
    (hn : o.operandCount = 2) : s.pc + 2 ∈ s.fetchSet cfg := by
  simp [State.fetchSet, hdec, hn]

/-- The fetch and decode see only the cells of the table's fetch: the opcode, and each operand byte the operation
has. -/
theorem fetchDecode_withMem {cfg : Config} {s : State} {m : Memory} (hm : s.agreesOn (s.fetchSet cfg) m) :
    (s.withMem m).fetchDecode cfg = s.fetchDecode cfg := by
  have hop : (s.withMem m).opcodeByte = s.opcodeByte := hm s.pc (pc_mem_fetchSet cfg s)
  simp only [State.fetchDecode, hop]
  cases hdec : decodeOpcode cfg s.opcodeByte with
  | unknownOp u => rfl
  | knownOp o =>
    have hb1 (hn : o.operandCount ≥ 1) : (s.withMem m).operandByte1 = s.operandByte1 :=
      hm _ (operand1_mem_fetchSet hdec hn)
    have hb2 (hn : o.operandCount = 2) : (s.withMem m).operandByte2 = s.operandByte2 :=
      hm _ (operand2_mem_fetchSet hdec hn)
    exact congrArg₂ (decodeOperands o s.opcodeByte) (ite_congr rfl hb1 fun _ => rfl) (ite_congr rfl hb2 fun _ => rfl)

/-- The table's reads include those of the fetch. -/
theorem fetchSet_subset_readSet (cfg : Config) (s : State) : s.fetchSet cfg ⊆ s.readSet cfg := by
  unfold State.readSet
  split
  · exact List.subset_append_left _ _
  · exact List.subset_append_left _ _
  · exact List.Subset.refl _

/-- A POP or RET that runs reads the cell at SP. -/
theorem sp_mem_readSet {cfg : Config} {s : State} {i : Instr} (hi : i = .ret ∨ ∃ rA, i = .pop rA)
    (hd : s.fetchDecode cfg = .instr i) : s.sp ∈ s.readSet cfg := by
  rcases hi with rfl | ⟨rA, rfl⟩ <;> simp [State.readSet, hd]

/-- Every meaning but PUSH's and CALL's commutes with replacing memory; only POP and RET need the cell at SP to stay,
which is all they read of it. -/
theorem exec_withMem {i : Instr} {s t : State} {m : Memory} (hpush : ∀ rA, i ≠ .push rA)
    (hcall : ∀ rA, i ≠ .call rA)
    (hsp : (i = .ret ∨ ∃ rA, i = .pop rA) → Memory.read m s.sp.toNat = s.memRead s.sp) (h : exec i s = .next t) :
    exec i (s.withMem m) = .next (t.withMem m) := by
  cases i with
  | push rA => exact absurd rfl (hpush rA)
  | call rA => exact absurd rfl (hcall rA)
  | pop rA =>
    rw [exec_pop] at h ⊢
    cases h
    rw [sp_withMem, memRead_withMem, hsp (.inr ⟨rA, rfl⟩)]
    rfl
  | ret =>
    rw [exec_ret] at h ⊢
    cases h
    rw [sp_withMem, memRead_withMem, hsp (.inl rfl)]
    rfl
  | div rA rB =>
    rw [exec_div] at h ⊢
    cases h
    rw [getReg_withMem]
    split <;> rfl
  | jeq rA =>
    rw [exec_jeq] at h ⊢
    cases h
    rfl
  | jne rA =>
    rw [exec_jne] at h ⊢
    cases h
    rfl
  | _ =>
    -- No remaining meaning mentions memory, so the two orders of updates are the same record.
    cases h
    rfl

/-- PUSH and CALL store one value in the cell below SP, the same over every memory. -/
theorem exec_withMem_store {i : Instr} {s t : State} (hi : (∃ rA, i = .push rA) ∨ ∃ rA, i = .call rA)
    (h : exec i s = .next t) :
    ∃ v, ∀ m, exec i (s.withMem m) = .next (t.withMem (Memory.write m s.pushAddress.toNat v)) := by
  rcases hi with ⟨rA, rfl⟩ | ⟨rA, rfl⟩
  · rw [exec_push] at h
    cases h
    refine ⟨s.decSp.getReg rA, fun m => ?_⟩
    rw [exec_push, decSp_withMem, getReg_withMem, storeAtSp_withMem, sp_decSp]
    rfl
  · rw [exec_call] at h
    cases h
    refine ⟨s.pc + 2, fun m => ?_⟩
    rw [exec_call, decSp_withMem, getReg_withMem, storeAtSp_withMem, sp_decSp]
    rfl

/-- What a step does to memory, over every memory that agrees on the cells it reads: it writes no cell, or it stores
one value in the cell below SP. -/
theorem stepWith_withMem_cases {cfg : Config} {s t : State} (h : stepWith cfg s = .next t) :
    (s.writeSet cfg = [] ∧
      ∀ m, s.agreesOn (s.readSet cfg) m → stepWith cfg (s.withMem m) = .next (t.withMem m)) ∨
    (s.writeSet cfg = [s.pushAddress] ∧ ∃ v, ∀ m, s.agreesOn (s.readSet cfg) m →
      stepWith cfg (s.withMem m) = .next (t.withMem (Memory.write m s.pushAddress.toNat v))) := by
  have hfetch : ∀ m, s.agreesOn (s.readSet cfg) m → (s.withMem m).fetchDecode cfg = s.fetchDecode cfg :=
    fun m hm => fetchDecode_withMem fun a ha => hm a (fetchSet_subset_readSet cfg s ha)
  obtain ⟨hrun, hcases⟩ := stepWith_cases h
  have hr : ∀ m, (s.withMem m).run = .running := fun m => (withMem_run s m).trans hrun
  obtain ⟨i, hd, hi⟩ | ⟨op, hd, rfl⟩ | ⟨op, b, hd, rfl⟩ := hcases
  · by_cases hstore : (∃ rA, i = .push rA) ∨ ∃ rA, i = .call rA
    · right
      obtain ⟨v, hv⟩ := exec_withMem_store hstore hi
      refine ⟨by rcases hstore with ⟨rA, rfl⟩ | ⟨rA, rfl⟩ <;> simp [State.writeSet, hd], v, fun m hm => ?_⟩
      rw [stepWith_instr (hr m) ((hfetch m hm).trans hd), hv]
    · left
      simp only [not_or, not_exists] at hstore
      obtain ⟨hpush, hcall⟩ := hstore
      refine ⟨by simp [State.writeSet, hd, hpush, hcall], fun m hm => ?_⟩
      rw [stepWith_instr (hr m) ((hfetch m hm).trans hd)]
      exact exec_withMem hpush hcall (fun hpop => hm s.sp (sp_mem_readSet hpop hd)) hi
  · refine .inl ⟨by simp [State.writeSet, hd], fun m hm => ?_⟩
    rw [stepWith_illegal (hr m) ((hfetch m hm).trans hd), illegalOpcode_withMem]
  · refine .inl ⟨by simp [State.writeSet, hd], fun m hm => ?_⟩
    rw [stepWith_badRegister (hr m) ((hfetch m hm).trans hd), raise_withMem]

/-- The memory a step leaves is the one it leaves over the memory it started with. -/
theorem mem_of_stepWith_withMem {cfg : Config} {s t : State} {m : Memory} (h : stepWith cfg s = .next t)
    (hm : stepWith cfg (s.withMem s.mem) = .next (t.withMem m)) : t.mem = m := by
  rw [withMem_mem_self, h] at hm
  rw [Host.Outcome.next.inj hm, withMem_mem]

end Sys2Proof.Machine

open Sys2Proof Sys2Proof.Machine

/-- Settles O45: a step writes nothing or stores one value in the cell below SP, and does so over every memory that
agrees on the cells it reads (`stepWith_withMem_cases`); at its own memory this is what it changes. -/
theorem stepAccessesOnlyTheTablesCells : Obligations.StepAccessesOnlyTheTablesCells := by
  intro cfg s t m h
  obtain ⟨hw, hkeep⟩ | ⟨hw, v, hstore⟩ := stepWith_withMem_cases h
  · have hmem := mem_of_stepWith_withMem h (hkeep s.mem (agreesOn_mem s _))
    rw [hw]
    refine ⟨fun a _ => ?_, fun hm => ⟨m, hkeep m hm, fun a => ?_⟩⟩
    · rw [State.memRead, hmem]
      rfl
    · rw [if_neg List.not_mem_nil]
  · have hmem := mem_of_stepWith_withMem h (hstore s.mem (agreesOn_mem s _))
    have hread : ∀ a, t.memRead a = if a = s.pushAddress then v else s.memRead a := by
      intro a
      rw [State.memRead, hmem]
      exact memRead_memWrite s s.pushAddress a v
    rw [hw]
    refine ⟨fun a ha => ?_, fun hm => ⟨_, hstore m hm, fun a => ?_⟩⟩
    · rw [hread, if_neg (List.mem_singleton.not.mp ha)]
    · simp only [Memory.read_write, BitVec.toNat_inj, List.mem_singleton, hread]
      split <;> rfl

/-- Settles O44: the cell written reads as written (`memRead_memWrite`), and writes of other cells keep it
(`memRead_foldl_memWrite`). -/
theorem readAfterWrite : Obligations.ReadAfterWrite := by
  intro s a v
  refine ⟨fun b hb => ?_, rfl, fun ws hws => ?_⟩
  · rw [memRead_memWrite, if_neg (List.mem_singleton.not.mp hb)]
  · rw [memRead_foldl_memWrite hws, memRead_memWrite, if_pos rfl]

end

section
/-! PROOF. spec/30_encoding.md R89: the opcode decoder against the map's whole opcode bytes. -/

namespace Sys2Proof

/-- The decoder knows a byte as an operation exactly when it is the whole opcode of that operation, in an enabled
group. -/
theorem decodeOpcode_eq_knownOp {cfg : Config} {b : Byte} {o : Op} :
    decodeOpcode cfg b = .knownOp o ↔ o.opcode = b ∧ o.enabled cfg = true := by
  constructor
  · intro h
    obtain ⟨hb, ho⟩ := decodeOpcode_known h
    exact ⟨hb.symm, ho⟩
  · rintro ⟨rfl, ho⟩
    exact decodeOpcode_opcode ho

end Sys2Proof

open Sys2Proof

/-- Settles O4: the known bytes are `decodeOpcode_eq_knownOp`; on any other byte the decoder's answer can only be
UnknownOp, and that carries the byte (`decodeOpcode_unknown`). -/
theorem opcodeDecoderMatchesWholeByte : Obligations.OpcodeDecoderMatchesWholeByte := by
  intro cfg b
  refine ⟨fun o => decodeOpcode_eq_knownOp, fun hnone => ?_⟩
  cases hdec : decodeOpcode cfg b with
  | knownOp o => exact absurd (decodeOpcode_eq_knownOp.mp hdec) (hnone o)
  | unknownOp u => rw [(decodeOpcode_unknown hdec).left]

end

section
/-! PROOF. spec/40_machine_control.md R114: an instruction that does not set PC ends in its one advance of PC, by its
length; DIV by zero, which takes the fault instead, is the only exception. -/

namespace Sys2Proof.Machine

/-- DIV that does not end in Faulted had a divisor other than 0 (spec/60_exceptions.md R223). -/
theorem divisor_ne_zero_of_exec_div {rA rB : Reg} {s t : State} (h : exec (.div rA rB) s = .next t)
    (ht : t.run ≠ .faulted) : s.getReg rB ≠ 0 := by
  intro h0
  rw [exec_div_zero h0] at h
  cases h
  exact ht (raise_run ..)

/-- An instruction that neither sets PC nor ends in Faulted moves PC past its own bytes. -/
theorem exec_pc_of_not_setsPc {i : Instr} {s t : State} (h : exec i s = .next t) (ht : t.run ≠ .faulted)
    (hpc : setsPc i = false) : t.pc = s.pc + BitVec.ofNat 8 i.len := by
  cases i with
  | call _ | ret | jmp _ | jeq _ | jne _ => cases hpc
  | div rA rB =>
    rw [exec_div_ne (divisor_ne_zero_of_exec_div h ht)] at h
    cases h
    exact advance_pc ..
  | _ =>
    -- Every remaining meaning is updates that keep PC, then the advance by the length of its row.
    cases h
    exact advance_pc ..

end Sys2Proof.Machine

open Sys2Proof Sys2Proof.Machine

/-- Settles O10: every instruction that does not set PC advances it by its length (`exec_pc_of_not_setsPc`); that `t`
is not Faulted leaves DIV by zero out. -/
theorem advanceByInstructionLength : Obligations.AdvanceByInstructionLength := by
  intro i s t h _ ht hpc
  exact exec_pc_of_not_setsPc h ht hpc

end

section
/-! PROOF. spec/41_load_output.md R130 and R131 on memory bytes. LDI and PRN have one register operand each, so that
one case split covers both: a byte above 7 is taken as RegisterOutOfRange, any other names the register of the
instruction that runs. The output channel only grows, because PRN alone writes it, by appending. -/

namespace Sys2Proof

/-- An operation of group base is decoded by every machine (spec/00_scope.md R9). -/
theorem Op.enabled_of_base {o : Op} (cfg : Config) (h : o.row.ext = false) : o.enabled cfg = true := by
  simp [Op.enabled, h]

/-- A register operand byte is out of range, which its fault reports, or it names a register. -/
theorem decodeF1R_cases (op b1 : Byte) (mk : Reg → Instr) :
    (8 ≤ b1.toNat ∧ decodeF1R op b1 mk = .registerOutOfRange op b1) ∨
    ∃ rA, b1 = registerByte rA ∧ decodeF1R op b1 mk = .instr (mk rA) := by
  unfold decodeF1R
  cases hb : registerOperand b1 with
  | none => exact .inl ⟨registerOperand_eq_none.mp hb, rfl⟩
  | some rA => exact .inr ⟨rA, registerOperand_eq_some.mp hb, rfl⟩

/-- The immediate of format F2RI is not checked: the register decides alone, as in format F1R. -/
theorem decodeF2RI_eq_decodeF1R (op b1 b2 : Byte) (mk : Reg → Byte → Instr) :
    decodeF2RI op b1 b2 mk = decodeF1R op b1 (mk · b2) := rfl

end Sys2Proof

namespace Sys2Proof.Machine

/-- The opcode of an enabled operation at PC makes the fetch decode that operation's operand bytes. -/
theorem fetchDecode_opcode {cfg : Config} {s : State} {o : Op} (ho : o.enabled cfg = true)
    (hop : s.memRead s.pc = o.opcode) :
    s.fetchDecode cfg = decodeOperands o o.opcode (s.memRead (s.pc + 1)) (s.memRead (s.pc + 2)) := by
  rw [fetchDecode_eq, hop, decode, decodeOpcode_opcode ho]

/-- Everything a step can do on an operation whose one register operand is `b1`: take RegisterOutOfRange, or run the
instruction of the register that `b1` names. -/
theorem stepWith_oneRegister_cases {cfg : Config} {s : State} {op b1 : Byte} {mk : Reg → Instr}
    (hr : s.run = .running) (hd : s.fetchDecode cfg = decodeF1R op b1 mk) :
    (8 ≤ b1.toNat ∧ stepWith cfg s = .next (s.raise .registerOutOfRange op b1)) ∨
    ∃ rA : Reg, b1.toNat = rA.val ∧ stepWith cfg s = exec (mk rA) s := by
  obtain ⟨hb, hbad⟩ | ⟨rA, rfl, hinstr⟩ := decodeF1R_cases op b1 mk
  · exact .inl ⟨hb, stepWith_badRegister hr (hd.trans hbad)⟩
  · exact .inr ⟨rA, toNat_registerByte rA, stepWith_instr hr (hd.trans hinstr)⟩

/-- `raise` takes the fault it names: the record and Faulted, and nothing else (spec/60_exceptions.md R224). -/
theorem faultTaken_raise (c : Cause) (op d : Byte) (s : State) : faultTaken c op d s (s.raise c op d) :=
  ⟨rfl, rfl, rfl, rfl, rfl, fun _ _ => rfl, fun _ _ => rfl⟩

/-- PRN appends its register to the output channel, and no other instruction writes it (spec/10_state.md R35). -/
theorem exec_out_cases {i : Instr} {s t : State} (h : exec i s = .next t) :
    t.out = s.out ∨ ∃ rA, i = .prn rA ∧ t.out = s.out ++ [s.getReg rA] := by
  cases i with
  | prn rA =>
    cases h
    exact .inr ⟨rA, rfl, rfl⟩
  | div rA rB =>
    rw [exec_div] at h
    cases h
    left
    split <;> rfl
  | jeq rA | jne rA =>
    simp only [exec_jeq, exec_jne] at h
    cases h
    exact .inl rfl
  | _ =>
    -- No remaining meaning mentions the output channel.
    cases h
    exact .inl rfl

/-- Taking an illegal opcode emits nothing, in either mode. -/
theorem illegalOpcode_out (cfg : Config) (s : State) (op : Byte) : (s.illegalOpcode cfg op).out = s.out := by
  obtain ⟨-, h⟩ | ⟨-, h⟩ := illegalOpcode_cases cfg s op
  · rw [h, raise_out]
  · rw [h]

/-- What was emitted stays emitted over any step, one that faults included. -/
theorem stepWith_out_prefix {cfg : Config} {s t : State} (h : stepWith cfg s = .next t) : s.out <+: t.out := by
  obtain ⟨-, ⟨i, -, hi⟩ | ⟨op, -, rfl⟩ | ⟨op, b, -, rfl⟩⟩ := stepWith_cases h
  · obtain hout | ⟨rA, -, hout⟩ := exec_out_cases hi
    · rw [hout]
    · rw [hout]
      exact List.prefix_append ..
  · rw [illegalOpcode_out]
  · rw [raise_out]

end Sys2Proof.Machine

open Sys2Proof Sys2Proof.Machine

/-- Settles O19: 0x82 decodes as LDI on every machine, whose one register operand is `b1`
(`stepWith_oneRegister_cases`). -/
theorem ldiBytesDoWhatLdiSays : Obligations.LdiBytesDoWhatLdiSays := by
  intro cfg s hrun hop b1 b2
  have hd : s.fetchDecode cfg = decodeF1R 0x82 b1 (Instr.ldi · b2) :=
    (fetchDecode_opcode (o := .ldi) (Op.enabled_of_base cfg rfl) hop).trans (decodeF2RI_eq_decodeF1R ..)
  obtain ⟨hb, hstep⟩ | ⟨rA, hb, hstep⟩ := stepWith_oneRegister_cases hrun hd
  · exact ⟨_, hstep, fun _ => faultTaken_raise .., fun rA hrA => by omega⟩
  · rw [exec_ldi] at hstep
    refine ⟨_, hstep, fun hbad => by omega, fun rB hrB => ?_⟩
    obtain rfl : rA = rB := Fin.ext (hb.symm.trans hrB)
    refine ⟨getReg_setReg_self s rA b2, rfl, fun r hr => ?_, fun _ _ => rfl, rfl, rfl, rfl, rfl⟩
    exact getReg_setReg_ne s (List.mem_singleton.not.mp hr) b2

/-- Settles O20: 0x47 decodes as PRN on every machine, whose one register operand is `b1`
(`stepWith_oneRegister_cases`); no step takes output back (`stepWith_out_prefix`). -/
theorem prnBytesDoWhatPrnSays : Obligations.PrnBytesDoWhatPrnSays := by
  refine ⟨?_, fun _ _ _ => stepWith_out_prefix⟩
  intro cfg s hrun hop b1
  have hd : s.fetchDecode cfg = decodeF1R 0x47 b1 .prn :=
    fetchDecode_opcode (o := .prn) (Op.enabled_of_base cfg rfl) hop
  obtain ⟨hb, hstep⟩ | ⟨rA, hb, hstep⟩ := stepWith_oneRegister_cases hrun hd
  · exact ⟨_, hstep, fun _ => faultTaken_raise .., fun rA hrA => by omega⟩
  · rw [exec_prn] at hstep
    refine ⟨_, hstep, fun hbad => by omega, fun rB hrB => ?_⟩
    obtain rfl : rA = rB := Fin.ext (hb.symm.trans hrB)
    exact ⟨rfl, rfl, fun _ _ => rfl, fun _ _ => rfl, rfl, rfl, rfl⟩

end

section
/-! PROOF. spec/42_alu.md R142: away from DIV by zero, every instruction of the family is one register write and one
advance by its length; all that the family keeps is read off those two updates. -/

namespace Sys2Proof.Machine

/-- The instructions of R142 on operands `rA` and `rB`: the ALU's, without CMP, which writes FL instead of a
register. -/
def aluFamily (rA rB : Reg) : List Instr :=
  [.add rA rB, .mul rA rB, .sub rA rB, .div rA rB, .and rA rB, .or rA rB, .xor rA rB, .shl rA rB, .shr rA rB, .not rA]

/-- CMP is not of the family. -/
theorem ne_cmp_of_mem_aluFamily {i : Instr} {rA rB : Reg} (hi : i ∈ aluFamily rA rB) (r q : Reg) : i ≠ .cmp r q := by
  rintro rfl
  simp [aluFamily] at hi

/-- No conditional jump is of the family. -/
theorem not_branch_of_mem_aluFamily {i : Instr} {rA rB : Reg} (hi : i ∈ aluFamily rA rB) :
    ¬∃ r, i = .jeq r ∨ i = .jne r := by
  rintro ⟨r, rfl | rfl⟩ <;> simp [aluFamily] at hi

/-- Everything an instruction of the family does, unless it divides by zero: write `rA`, then advance by its length. -/
theorem exec_aluFamily {i : Instr} {rA rB : Reg} {s : State} (hi : i ∈ aluFamily rA rB)
    (hdiv : i = .div rA rB → s.getReg rB ≠ 0) :
    ∃ v, exec i s = .next ((s.setReg rA v).advance (BitVec.ofNat 8 i.len)) := by
  simp only [aluFamily, List.mem_cons, List.not_mem_nil, or_false] at hi
  obtain rfl | rfl | rfl | rfl | rfl | rfl | rfl | rfl | rfl | rfl := hi
  case inr.inr.inr.inl => exact ⟨_, exec_div_ne (hdiv rfl)⟩
  -- The ALU has a value for every operand of the nine others.
  all_goals exact ⟨_, rfl⟩

/-- Writing one register and advancing keeps the other registers. -/
theorem regsKeptBut_setReg_advance (s : State) (r : Reg) (v len : Byte) :
    regsKeptBut [r] s ((s.setReg r v).advance len) :=
  fun _ hq => getReg_setReg_ne s (List.mem_singleton.not.mp hq) v

end Sys2Proof.Machine

open Sys2Proof Sys2Proof.Machine

/-- Settles O26: the family's one next state is a register write and an advance (`exec_aluFamily`), and it commutes with
overwriting FL, as does every meaning but CMP's and the conditional jumps' (`exec_setFl`). -/
theorem aluFamilyWritesOneRegister : Obligations.AluFamilyWritesOneRegister := by
  intro rA rB s f i hi hdiv
  obtain ⟨v, h⟩ := exec_aluFamily hi hdiv
  have hfl : exec i (s.setFl f) = .next (((s.setReg rA v).advance (BitVec.ofNat 8 i.len)).setFl f) :=
    exec_setFl (ne_cmp_of_mem_aluFamily hi) (fun hbr => absurd hbr (not_branch_of_mem_aluFamily hi)) h
  have hregs := regsKeptBut_setReg_advance s rA v (BitVec.ofNat 8 i.len)
  have hsp : rA ≠ 7 → ((s.setReg rA v).advance (BitVec.ofNat 8 i.len)).sp = s.sp :=
    fun hne => hregs spIndex (List.mem_singleton.not.mpr hne.symm)
  exact ⟨_, h, hfl, hregs, hsp, fun _ _ => rfl, rfl, rfl, ⟨rfl, rfl⟩, rfl⟩

end

section
/-! PROOF. spec/44_call_return.md R192: CALL's push writes the one cell below SP and the one register SP; RET reads the
cell at SP and undoes the decrement, in any state that still has both. -/

namespace Sys2Proof.Machine

/-- The store of a push at the decremented SP writes one cell, the one below the old SP. -/
theorem memKeptBut_decSp_storeAtSp (s : State) (v : Byte) : memKeptBut [s.sp - 1] s (s.decSp.storeAtSp v) := by
  intro a ha
  rw [memRead_storeAtSp, sp_decSp, if_neg (List.mem_singleton.not.mp ha), memRead_decSp]

/-- That cell then reads as the value pushed. -/
theorem memRead_decSp_storeAtSp_self (s : State) (v : Byte) : (s.decSp.storeAtSp v).memRead (s.sp - 1) = v := by
  rw [memRead_storeAtSp, sp_decSp, if_pos rfl]

/-- Decrementing SP keeps every register but R7, which is SP. -/
theorem regsKeptBut_decSp (s : State) : regsKeptBut [7] s s.decSp :=
  fun _ hq => getReg_setReg_ne s (List.mem_singleton.not.mp hq) _

/-- Incrementing SP keeps every register but R7, which is SP. -/
theorem regsKeptBut_incSp (s : State) : regsKeptBut [7] s s.incSp :=
  fun _ hq => getReg_setReg_ne s (List.mem_singleton.not.mp hq) _

end Sys2Proof.Machine

open Sys2Proof Sys2Proof.Machine

/-- Settles O32: CALL leaves SP one below and the return address in that cell; RET from a state with that SP and that
cell puts the cell in PC and adds the one back to SP, modulo 256. -/
theorem callThenReturnResumes : Obligations.CallThenReturnResumes := by
  intro rA s
  have hcell := memRead_decSp_storeAtSp_self s (s.pc + 2)
  refine ⟨_, exec_call rA s, hcell, memKeptBut_decSp_storeAtSp s (s.pc + 2), regsKeptBut_decSp s, ?_⟩
  intro u hsp hmem
  rw [sp_setPc, sp_storeAtSp, sp_decSp] at hsp hmem
  have hpc : u.memRead u.sp = s.pc + 2 := by rw [hsp, hmem, memRead_setPc, hcell]
  have hspBack : (u.setPc (u.memRead u.sp)).incSp.sp = s.sp := by
    rw [sp_incSp, sp_setPc, hsp, BitVec.sub_add_cancel]
  exact ⟨_, exec_ret u, hpc, hspBack, regsKeptBut_incSp (u.setPc (u.memRead u.sp)), fun _ _ => rfl⟩

end

section
/-! PROOF. spec/60_exceptions.md R239: a load at address 0 puts byte k of the image in cell k and keeps every cell the
image does not reach. -/

namespace Sys2Proof.Machine

/-- A cell after an image was written from address 0: the image's byte at the cell's address, or the old cell past the
image's end. -/
theorem memRead_writeImage_zero (img : List Byte) (s : State) (a : Byte) :
    ({ s with mem := Memory.writeImage s.mem 0 img } : State).memRead a = (img[a.toNat]?).getD (s.memRead a) := by
  rw [State.memRead, Memory.read_writeImage, if_pos (Nat.zero_le _), Nat.sub_zero, State.memRead]

end Sys2Proof.Machine

open Sys2Proof Sys2Proof.Machine

/-- Settles O50: the answer of a load by run state and length is `hostLoad_tooLong`, `hostLoad_idle` and
`hostLoad_refused`; the cells of the loaded state are `memRead_writeImage_zero`. -/
theorem loadWritesTheWholeImageOrNothing : Obligations.LoadWritesTheWholeImageOrNothing := by
  intro img s
  refine ⟨hostLoad_tooLong, fun hidle hlen => ?_, fun hidle t r h => ?_⟩
  · exact ⟨_, hostLoad_idle hidle hlen, memRead_writeImage_zero img s, rfl⟩
  · rw [hostLoad_refused hidle] at h
    cases h

end

section
/-! PROOF. spec/30_encoding.md R80 to R90: decoding undoes encoding, encoding undoes decoding, and the opcode bytes
known to the decoder. A decoder's answer is characterised once, by the bytes it read (`decode_eq_instr_iff`). -/

namespace Sys2Proof

theorem decodeF1R_registerByte (op : Byte) (r : Reg) (mk : Reg → Instr) :
    decodeF1R op (registerByte r) mk = .instr (mk r) := by
  rw [decodeF1R, registerOperand_registerByte]

theorem decodeF2RR_registerByte (op : Byte) (r q : Reg) (mk : Reg → Reg → Instr) :
    decodeF2RR op (registerByte r) (registerByte q) mk = .instr (mk r q) := by
  rw [decodeF2RR, registerOperand_registerByte, registerOperand_registerByte]

theorem decodeF2RI_registerByte (op : Byte) (r : Reg) (imm : Byte) (mk : Reg → Byte → Instr) :
    decodeF2RI op (registerByte r) imm mk = .instr (mk r imm) := by
  rw [decodeF2RI, registerOperand_registerByte]

/-- An instruction's operand bytes, whatever follows them, decode to it under its own operation: the format of the row
is the shape of the constructor. -/
theorem decodeOperands_operandBytes (i : Instr) (op : Byte) (rest : List Byte) :
    decodeOperands i.op op ((i.operandBytes ++ rest).getD 0 0) ((i.operandBytes ++ rest).getD 1 0) = .instr i := by
  cases i with
  | hlt | ret => rfl
  | ldi rA imm => exact decodeF2RI_registerByte op rA imm _
  | prn rA | not rA | push rA | pop rA | call rA | jmp rA | jeq rA | jne rA => exact decodeF1R_registerByte op rA _
  | add rA rB | sub rA rB | mul rA rB | div rA rB | cmp rA rB | and rA rB | or rA rB | xor rA rB | shl rA rB
  | shr rA rB => exact decodeF2RR_registerByte op rA rB _

/-- Operand bytes that become an instruction are its operand bytes, as many as its operation has. -/
theorem operandBytes_of_decodeOperands {o : Op} {op b1 b2 : Byte} {i : Instr}
    (h : decodeOperands o op b1 b2 = .instr i) : i.operandBytes = [b1, b2].take o.operandCount := by
  cases o with
  | hlt | ret =>
    cases h
    rfl
  | ldi =>
    obtain ⟨rA, rfl, rfl⟩ := decodeF2RI_instr h
    rfl
  | prn | not | push | pop | call | jmp | jeq | jne =>
    obtain ⟨rA, rfl, rfl⟩ := decodeF1R_instr h
    rfl
  | add | sub | mul | div | cmp | and | or | xor | shl | shr =>
    obtain ⟨rA, rB, rfl, rfl, rfl⟩ := decodeF2RR_instr h
    rfl

/-- The decoder gives back every instruction of the machine from its bytes. -/
theorem decodeBytes_encode {cfg : Config} {i : Instr} (hi : i.wellFormed cfg = true) (rest : List Byte) :
    decodeBytes cfg (encode i ++ rest) = .instr i := by
  rw [← Instr.enabled_op] at hi
  show decode cfg i.op.opcode _ _ = _
  rw [decode, decodeOpcode_opcode hi]
  exact decodeOperands_operandBytes i i.op.opcode rest

/-- An instruction comes from the opcode of its enabled operation and from operand bytes that this operation takes. -/
theorem decode_instr {cfg : Config} {op b1 b2 : Byte} {i : Instr} (h : decode cfg op b1 b2 = .instr i) :
    op = i.op.opcode ∧ i.op.enabled cfg = true ∧ decodeOperands i.op op b1 b2 = .instr i := by
  unfold decode at h
  cases hdec : decodeOpcode cfg op with
  | unknownOp u =>
    rw [hdec] at h
    cases h
  | knownOp o =>
    rw [hdec] at h
    obtain rfl := decodeOperands_op h
    obtain ⟨hop, hen⟩ := decodeOpcode_known hdec
    exact ⟨hop, hen, h⟩

/-- Bytes decode to an instruction exactly when the machine has it and they begin with its encoding. -/
theorem decode_eq_instr_iff {cfg : Config} {op b1 b2 : Byte} {i : Instr} :
    decode cfg op b1 b2 = .instr i ↔ i.wellFormed cfg = true ∧ encode i = [op, b1, b2].take i.len := by
  constructor
  · intro h
    obtain ⟨rfl, hen, hoperands⟩ := decode_instr h
    refine ⟨(Instr.enabled_op cfg i).symm.trans hen, ?_⟩
    rw [encode, operandBytes_of_decodeOperands hoperands, Instr.len, Nat.add_comm, List.take_succ_cons]
  · rintro ⟨hi, hbytes⟩
    have hall : encode i ++ [op, b1, b2].drop i.len = [op, b1, b2] := by rw [hbytes, List.take_append_drop]
    have hdec := decodeBytes_encode hi ([op, b1, b2].drop i.len)
    rwa [hall] at hdec

/-- R86's opcode bytes of group base. -/
theorem baseOpcodes_eq : (Op.all.filter fun o => !o.row.ext).map Op.opcode =
    [0x01, 0x82, 0x47, 0xA2, 0xA0, 0x45, 0x46, 0x50, 0x11, 0xA7, 0x54, 0x55, 0x56] := by decide

/-- R86's opcode bytes of group ext. -/
theorem extOpcodes_eq : (Op.all.filter fun o => o.row.ext).map Op.opcode =
    [0xA1, 0xA3, 0xA8, 0xAA, 0xAB, 0x69, 0xAC, 0xAD] := by decide

/-- A byte is in the opcodes of a selection of rows exactly when it is the opcode of one of them. -/
theorem mem_opcodes_filter {p : Op → Bool} {b : Byte} :
    b ∈ (Op.all.filter p).map Op.opcode ↔ ∃ o, p o = true ∧ o.opcode = b := by
  simp [Op.mem_all]

end Sys2Proof

open Sys2Proof

/-- Settles O2: the opcode selects the instruction's operation, whose format reads back its operand bytes
(`decodeBytes_encode`). -/
theorem decodeOfEncodeIsTheInstruction : Obligations.DecodeOfEncodeIsTheInstruction :=
  fun _ _ rest hi => decodeBytes_encode hi rest

/-- Settles O3: the forward half of `decode_eq_instr_iff`. -/
theorem encodeOfDecodeIsTheBytes : Obligations.EncodeOfDecodeIsTheBytes :=
  fun _ _ _ _ _ h => decode_eq_instr_iff.mp h

/-- Settles O5: a known byte is the opcode of an enabled row (`decodeOpcode_eq_knownOp`); a row is enabled when its
group is base, or is ext and `EXT_ALU = true`; the bytes of the two groups are read off the map. -/
theorem knownOpcodesAreTheMapsBytes : Obligations.KnownOpcodesAreTheMapsBytes := by
  intro cfg b
  rw [← baseOpcodes_eq, ← extOpcodes_eq, mem_opcodes_filter, mem_opcodes_filter]
  simp only [decodeOpcode_eq_knownOp, Op.enabled, Bool.or_eq_true]
  constructor
  · rintro ⟨o, hb, hext | hbase⟩
    · cases hgroup : o.row.ext with
      | false => exact .inl ⟨o, by simp [hgroup], hb⟩
      | true => exact .inr ⟨hext, o, hgroup, hb⟩
    · exact .inl ⟨o, hbase, hb⟩
  · rintro (⟨o, hbase, hb⟩ | ⟨hext, o, -, hb⟩)
    · exact ⟨o, hb, .inr hbase⟩
    · exact ⟨o, hb, .inl hext⟩

/-- Settles O1: the words are closed, and the decoder runs on them. -/
theorem writtenWordsDecode : Obligations.WrittenWordsDecode := by
  unfold Obligations.WrittenWordsDecode
  decide

end

section
/-! PROOF. spec/40_machine_control.md R110 to R116: what a step of a Running core runs is what the bytes at PC decode
to, and outside Running there is no step. -/

namespace Sys2Proof.Machine

/-- A step of a Running core runs the instruction that the three bytes at PC decode to. -/
theorem stepWith_decode {cfg : Config} {s : State} {i : Instr} (hr : s.run = .running)
    (h : decode cfg (s.memRead s.pc) (s.memRead (s.pc + 1)) (s.memRead (s.pc + 2)) = .instr i) :
    stepWith cfg s = exec i s :=
  stepWith_instr hr ((fetchDecode_eq cfg s).trans h)

/-- A Running core always has a next state: no answer of the decoder and no meaning is without one. -/
theorem stepWith_next {cfg : Config} {s : State} (hr : s.run = .running) : ∃ t, stepWith cfg s = .next t := by
  cases hd : s.fetchDecode cfg with
  | instr i =>
    rw [stepWith_instr hr hd]
    exact exec_next i s
  | illegalInstruction op => exact ⟨_, stepWith_illegal hr hd⟩
  | registerOutOfRange op b => exact ⟨_, stepWith_badRegister hr hd⟩

/-- Outside Running a step answers `noStep` with the run state. -/
theorem stepWith_noStep {cfg : Config} {s : State} (hr : s.run ≠ .running) :
    stepWith cfg s = .fault (.noStep s.run) := by
  unfold stepWith
  cases h : s.run with
  | running => exact absurd h hr
  | idle | halted | faulted => rfl

/-- An instruction has at most three bytes: no row has more than two operand bytes. -/
theorem length_encode_le (i : Instr) : (encode i).length ≤ 3 := by
  have hcount : ∀ o : Op, o.operandCount ≤ 2 := by intro o; cases o <;> decide
  rw [length_encode, Instr.len]
  have := hcount i.op
  omega

/-- The bytes of an instruction standing at PC are the first of the three that the fetch can read. -/
theorem encode_eq_take {s : State} {i : Instr}
    (h : ∀ (k : Nat) (hk : k < (encode i).length), s.memRead (s.pc + BitVec.ofNat 8 k) = (encode i)[k]) :
    encode i = [s.memRead s.pc, s.memRead (s.pc + 1), s.memRead (s.pc + 2)].take i.len := by
  have hthree : [s.memRead s.pc, s.memRead (s.pc + 1), s.memRead (s.pc + 2)] =
      (List.range 3).map fun k => s.memRead (s.pc + BitVec.ofNat 8 k) := by
    simp [List.range_succ]
  rw [hthree, ← length_encode]
  refine List.ext_getElem ?_ fun k hk _ => ?_
  · simp [length_encode_le]
  · simp [h k hk]

/-- The three bytes of a placed word stand at PC and after it, each where no later one was written. -/
theorem memRead_placeWord (s : State) (nbits w : Nat) :
    (s.placeWord nbits w).memRead s.pc = tableByte nbits w 0 ∧
    (s.placeWord nbits w).memRead (s.pc + 1) = tableByte nbits w 1 ∧
    (s.placeWord nbits w).memRead (s.pc + 2) = tableByte nbits w 2 := by
  simp [State.placeWord]

/-- A table word stands for the instruction that its three bytes decode to on this hardware. -/
theorem decode_of_decodeTableWord {nbits w : Nat} {i : Instr} (h : decodeTableWord nbits w = some i) :
    decode Config.hardware (tableByte nbits w 0) (tableByte nbits w 1) (tableByte nbits w 2) = .instr i := by
  unfold decodeTableWord at h
  split at h <;> cases h
  assumption

end Sys2Proof.Machine

open Sys2Proof Sys2Proof.Machine

/-- Settles O7: the fetch is the decoder on the three bytes at PC (`fetchDecode_eq`). -/
theorem stepRunsTheDecodedInstruction : Obligations.StepRunsTheDecodedInstruction :=
  fun _ _ _ hr h => stepWith_decode hr h

/-- Settles O8: the bytes at PC begin with the encoding (`encode_eq_take`), so that they decode to the instruction
(`decode_eq_instr_iff`). -/
theorem stepRunsTheEncodedInstruction : Obligations.StepRunsTheEncodedInstruction :=
  fun _ _ _ hr hi hbytes => stepWith_decode hr (decode_eq_instr_iff.mpr ⟨hi, encode_eq_take hbytes⟩)

/-- Settles O9: a step needs Running (`stepWith_cases`), and Running suffices (`stepWith_next`). -/
theorem stepIsPossibleExactlyInRunning : Obligations.StepIsPossibleExactlyInRunning := by
  intro cfg s
  refine ⟨⟨?_, stepWith_next⟩, stepWith_noStep⟩
  rintro ⟨t, h⟩
  exact (stepWith_cases h).left

/-- Settles O11: the fetch finds the word's bytes where they were placed (`memRead_placeWord`), in a Running core. -/
theorem placedWordRunsNext : Obligations.PlacedWordRunsNext := by
  intro s nbits w i h
  obtain ⟨h0, h1, h2⟩ := memRead_placeWord s nbits w
  refine stepWith_decode rfl ?_
  show decode _ ((s.placeWord nbits w).memRead s.pc) ((s.placeWord nbits w).memRead (s.pc + 1))
    ((s.placeWord nbits w).memRead (s.pc + 2)) = _
  rw [h0, h1, h2]
  exact decode_of_decodeTableWord h

end

section
/-! PROOF. spec/60_exceptions.md R237 to R243 and the host rows of spec/10_state.md R32: everything that can happen to
the core, said once by action (`act_cases`). -/

namespace Sys2Proof.Machine

/-- The host's load happens in Idle only, and keeps it. -/
theorem act_load {cfg : Config} {img : List Byte} {s t : State} (h : act cfg (.load img) s = .next t) :
    s.run = .idle ∧ (t = s ∨ img.length ≤ maxImage ∧ t = { s with mem := Memory.writeImage s.mem 0 img }) := by
  by_cases hr : s.run = .idle
  · refine ⟨hr, ?_⟩
    by_cases hlen : img.length ≤ maxImage
    · rw [act, hostLoad_idle hr hlen] at h
      cases h
      exact .inr ⟨hlen, rfl⟩
    · rw [act, hostLoad_tooLong hr (Nat.lt_of_not_le hlen)] at h
      cases h
      exact .inl rfl
  · rw [act, hostLoad_refused hr] at h
    cases h

/-- The host's load of any image answers in Idle. -/
theorem act_load_next (cfg : Config) (img : List Byte) {s : State} (hr : s.run = .idle) :
    ∃ t, act cfg (.load img) s = .next t := by
  by_cases hlen : img.length ≤ maxImage
  · exact ⟨_, by rw [act, hostLoad_idle hr hlen]⟩
  · exact ⟨_, by rw [act, hostLoad_tooLong hr (Nat.lt_of_not_le hlen)]⟩

/-- Everything that can happen to the core, by the table of R32 and R237. -/
theorem act_cases {cfg : Config} {a : HostAction} {s t : State} (h : act cfg a s = .next t) :
    (a = .reset ∧ t = State.resetWith cfg) ∨
    (∃ img, a = .load img ∧ s.run = .idle ∧
      (t = s ∨ img.length ≤ maxImage ∧ t = { s with mem := Memory.writeImage s.mem 0 img })) ∨
    (a = .run ∧ s.run = .idle ∧ t = s.setRun .running) ∨
    (a = .step ∧ stepWith cfg s = .next t) ∨
    (a = .stop ∧ s.run = .running ∧ t = s) ∨
    (a = .debugRead ∧ t = s) := by
  cases a with
  | reset =>
    cases h
    exact .inl ⟨rfl, rfl⟩
  | load img => exact .inr (.inl ⟨img, rfl, act_load h⟩)
  | run =>
    right; right; left
    by_cases hr : s.run = .idle
    · rw [act, hostRun_idle hr] at h
      cases h
      exact ⟨rfl, hr, rfl⟩
    · rw [act, hostRun_refused hr] at h
      cases h
  | step => exact .inr (.inr (.inr (.inl ⟨rfl, h⟩)))
  | stop =>
    right; right; right; right; left
    by_cases hr : s.run = .running
    · rw [act, hostStop_running hr] at h
      cases h
      exact ⟨rfl, hr, rfl⟩
    · rw [act, hostStop_refused hr] at h
      cases h
  | debugRead =>
    cases h
    exact .inr (.inr (.inr (.inr (.inr ⟨rfl, rfl⟩))))

/-- Nothing but the host's reset and debug read answers in Faulted (spec/60_exceptions.md R228). -/
theorem act_faulted {cfg : Config} {a : HostAction} {s t : State} (hs : s.run = .faulted)
    (h : act cfg a s = .next t) : (a = .reset ∧ t = State.resetWith cfg) ∨ (a = .debugRead ∧ t = s) := by
  obtain hreset | ⟨_, -, hr, -⟩ | ⟨-, hr, -⟩ | ⟨-, hstep⟩ | ⟨-, hr, -⟩ | hread := act_cases h
  · exact .inl hreset
  · cases hs.symm.trans hr
  · cases hs.symm.trans hr
  · cases hs.symm.trans (stepWith_cases hstep).left
  · cases hs.symm.trans hr
  · exact .inr hread

end Sys2Proof.Machine

open Sys2Proof Sys2Proof.Machine

/-- Settles O41: what answers is `act_cases`; that each action answers where the table allows it is its operation's own
lemma. -/
theorem hostActionsFollowTheRunStateTable : Obligations.HostActionsFollowTheRunStateTable := by
  intro cfg s
  refine ⟨fun a t h => ?_, rfl, rfl, fun hr => ⟨fun img => act_load_next cfg img hr, hostRun_idle hr⟩,
    fun hr => ⟨stepWith_next hr, hostStop_running hr⟩⟩
  obtain ⟨rfl, rfl⟩ | ⟨img, rfl, hr, ht⟩ | hrun | ⟨rfl, hstep⟩ | hstop | hread := act_cases h
  · exact .inl ⟨rfl, rfl, rfl⟩
  · refine .inr (.inl ⟨⟨img, rfl⟩, hr, ?_⟩)
    obtain rfl | ⟨-, rfl⟩ := ht <;> exact hr
  · exact .inr (.inr (.inl hrun))
  · exact .inr (.inr (.inr (.inl ⟨rfl, (stepWith_cases hstep).left⟩)))
  · exact .inr (.inr (.inr (.inr (.inl hstop))))
  · exact .inr (.inr (.inr (.inr (.inr hread))))

end

section
/-! PROOF. spec/30_encoding.md R85 and R90 and spec/60_exceptions.md R220 to R228: everything that taking a fault is.
What the fetch answers is tied to the bytes at PC; what a meaning does to the run state and the fault record is said
once (`exec_run_cases`); together they give every way a step can end in Faulted (`stepWith_faulted_cases`). -/

namespace Sys2Proof

/-- Format F2RR: `b1` is out of range, or `b1` names a register and `b2` is out of range, or both name registers. -/
theorem decodeF2RR_cases (op b1 b2 : Byte) (mk : Reg → Reg → Instr) :
    (8 ≤ b1.toNat ∧ decodeF2RR op b1 b2 mk = .registerOutOfRange op b1) ∨
    (b1.toNat < 8 ∧ 8 ≤ b2.toNat ∧ decodeF2RR op b1 b2 mk = .registerOutOfRange op b2) ∨
    ∃ rA rB, b1 = registerByte rA ∧ b2 = registerByte rB ∧ decodeF2RR op b1 b2 mk = .instr (mk rA rB) := by
  unfold decodeF2RR
  cases hb1 : registerOperand b1 with
  | none => exact .inl ⟨registerOperand_eq_none.mp hb1, rfl⟩
  | some rA =>
    obtain rfl := registerOperand_eq_some.mp hb1
    cases hb2 : registerOperand b2 with
    | none => exact .inr (.inl ⟨by simp, registerOperand_eq_none.mp hb2, rfl⟩)
    | some rB => exact .inr (.inr ⟨rA, rB, rfl, registerOperand_eq_some.mp hb2, rfl⟩)

/-- The operations with one register operand (spec/60_exceptions.md R222). -/
def oneRegisterOps : List Op := [.ldi, .prn, .push, .pop, .call, .jmp, .jeq, .jne, .not]

/-- The operations with two register operands (R222). -/
def twoRegisterOps : List Op := [.add, .mul, .cmp, .sub, .div, .and, .or, .xor, .shl, .shr]

/-- R222's operations with one register operand decode as format F1R does; LDI's second byte is not checked. -/
theorem decodeOperands_oneRegister {o : Op} (ho : o ∈ oneRegisterOps) (op b1 b2 : Byte) :
    ∃ mk : Reg → Instr, (∀ r, (mk r).op = o) ∧ decodeOperands o op b1 b2 = decodeF1R op b1 mk := by
  simp only [oneRegisterOps, List.mem_cons, List.not_mem_nil, or_false] at ho
  rcases ho with rfl | rfl | rfl | rfl | rfl | rfl | rfl | rfl | rfl
  case inl => exact ⟨(Instr.ldi · b2), fun _ => rfl, decodeF2RI_eq_decodeF1R ..⟩
  all_goals exact ⟨_, fun _ => rfl, rfl⟩

/-- R222's operations with two register operands decode as format F2RR does. -/
theorem decodeOperands_twoRegisters {o : Op} (ho : o ∈ twoRegisterOps) (op b1 b2 : Byte) :
    ∃ mk : Reg → Reg → Instr, (∀ r q, (mk r q).op = o) ∧ decodeOperands o op b1 b2 = decodeF2RR op b1 b2 mk := by
  simp only [twoRegisterOps, List.mem_cons, List.not_mem_nil, or_false] at ho
  rcases ho with rfl | rfl | rfl | rfl | rfl | rfl | rfl | rfl | rfl | rfl
  all_goals exact ⟨_, fun _ _ => rfl, rfl⟩

/-- What decodes as illegal is the opcode byte itself. -/
theorem decode_illegal {cfg : Config} {op b1 b2 u : Byte} (h : decode cfg op b1 b2 = .illegalInstruction u) :
    u = op := by
  unfold decode at h
  split at h
  · exact (decodeOperands_not_illegal _ _ _ _ _ h).elim
  · rename_i hdec
    cases h
    exact (decodeOpcode_unknown hdec).left

/-- An out-of-range register is reported with the opcode byte and an operand byte above 7. -/
theorem decode_badRegister {cfg : Config} {op b1 b2 p b : Byte} (h : decode cfg op b1 b2 = .registerOutOfRange p b) :
    p = op ∧ 8 ≤ b.toNat := by
  unfold decode at h
  split at h
  · exact decodeOperands_badRegister h
  · cases h

end Sys2Proof

namespace Sys2Proof.Machine

theorem fetchDecode_instr {cfg : Config} {s : State} {i : Instr} (h : s.fetchDecode cfg = .instr i) :
    s.memRead s.pc = i.op.opcode :=
  (decode_instr ((fetchDecode_eq cfg s).symm.trans h)).left

theorem fetchDecode_illegal {cfg : Config} {s : State} {u : Byte} (h : s.fetchDecode cfg = .illegalInstruction u) :
    u = s.memRead s.pc :=
  decode_illegal ((fetchDecode_eq cfg s).symm.trans h)

theorem fetchDecode_badRegister {cfg : Config} {s : State} {p b : Byte}
    (h : s.fetchDecode cfg = .registerOutOfRange p b) : p = s.memRead s.pc ∧ 8 ≤ b.toNat :=
  decode_badRegister ((fetchDecode_eq cfg s).symm.trans h)

/-- The fetch of a known operation decodes its operand bytes. -/
theorem fetchDecode_known {cfg : Config} {s : State} {o : Op} (h : decodeOpcode cfg (s.memRead s.pc) = .knownOp o) :
    s.fetchDecode cfg = decodeOperands o (s.memRead s.pc) (s.memRead (s.pc + 1)) (s.memRead (s.pc + 2)) := by
  rw [fetchDecode_eq, decode, h]

/-- HLT and RET, which have no register operand, always run. -/
theorem stepWith_noRegisterOp {cfg : Config} {s : State} {o : Op} (hr : s.run = .running)
    (hdec : decodeOpcode cfg (s.memRead s.pc) = .knownOp o) (ho : o ∈ [Op.hlt, .ret]) :
    ∃ i : Instr, i.op = o ∧ stepWith cfg s = exec i s := by
  have hd := fetchDecode_known hdec
  simp only [List.mem_cons, List.not_mem_nil, or_false] at ho
  obtain rfl | rfl := ho <;> exact ⟨_, rfl, stepWith_instr hr hd⟩

/-- Everything a step can do on an operation with one register operand. -/
theorem stepWith_oneRegisterOp_cases {cfg : Config} {s : State} {o : Op} (hr : s.run = .running)
    (hdec : decodeOpcode cfg (s.memRead s.pc) = .knownOp o) (ho : o ∈ oneRegisterOps) :
    (8 ≤ s.operandByte1.toNat ∧
      stepWith cfg s = .next (s.raise .registerOutOfRange (s.memRead s.pc) s.operandByte1)) ∨
    (s.operandByte1.toNat < 8 ∧ ∃ i : Instr, i.op = o ∧ stepWith cfg s = exec i s) := by
  obtain ⟨mk, hmk, hd⟩ := decodeOperands_oneRegister ho (s.memRead s.pc) s.operandByte1 s.operandByte2
  obtain hbad | ⟨rA, hb, hstep⟩ := stepWith_oneRegister_cases hr ((fetchDecode_known hdec).trans hd)
  · exact .inl hbad
  · exact .inr ⟨hb ▸ rA.isLt, mk rA, hmk rA, hstep⟩

/-- Everything a step can do on an operation with two register operands, of which the first is checked first. -/
theorem stepWith_twoRegisterOp_cases {cfg : Config} {s : State} {o : Op} (hr : s.run = .running)
    (hdec : decodeOpcode cfg (s.memRead s.pc) = .knownOp o) (ho : o ∈ twoRegisterOps) :
    (8 ≤ s.operandByte1.toNat ∧
      stepWith cfg s = .next (s.raise .registerOutOfRange (s.memRead s.pc) s.operandByte1)) ∨
    (s.operandByte1.toNat < 8 ∧
      ((8 ≤ s.operandByte2.toNat ∧
        stepWith cfg s = .next (s.raise .registerOutOfRange (s.memRead s.pc) s.operandByte2)) ∨
       (s.operandByte2.toNat < 8 ∧ ∃ i : Instr, i.op = o ∧ stepWith cfg s = exec i s))) := by
  obtain ⟨mk, hmk, hd⟩ := decodeOperands_twoRegisters ho (s.memRead s.pc) s.operandByte1 s.operandByte2
  have hfetch := (fetchDecode_known hdec).trans hd
  obtain ⟨hb1, hbad⟩ | ⟨hb1, hb2, hbad⟩ | ⟨rA, rB, hb1, hb2, hinstr⟩ :=
    decodeF2RR_cases (s.memRead s.pc) s.operandByte1 s.operandByte2 mk
  · exact .inl ⟨hb1, stepWith_badRegister hr (hfetch.trans hbad)⟩
  · exact .inr ⟨hb1, .inl ⟨hb2, stepWith_badRegister hr (hfetch.trans hbad)⟩⟩
  · refine .inr ⟨?_, .inr ⟨?_, mk rA rB, hmk rA rB, stepWith_instr hr (hfetch.trans hinstr)⟩⟩
    · rw [hb1, toNat_registerByte]
      exact rA.isLt
    · rw [hb2, toNat_registerByte]
      exact rB.isLt

/-- The fetch of a byte that is no enabled operation's opcode answers that the byte is illegal. -/
theorem fetchDecode_unknown {cfg : Config} {s : State}
    (h : ∀ o : Op, o.enabled cfg = true → o.opcode ≠ s.memRead s.pc) :
    s.fetchDecode cfg = .illegalInstruction (s.memRead s.pc) := by
  have hdec : decodeOpcode cfg (s.memRead s.pc) = .unknownOp (s.memRead s.pc) :=
    (opcodeDecoderMatchesWholeByte cfg (s.memRead s.pc)).right fun o ⟨hop, hen⟩ => h o hen hop
  rw [fetchDecode_eq, decode, hdec]

/-- DIV with a zero divisor in `s` (R223). -/
def dividesByZero (i : Instr) (s : State) : Prop := ∃ rA rB, i = .div rA rB ∧ s.getReg rB = 0

/-- Everything a meaning does to the run state and the fault record: HLT writes Halted, DIV by zero takes
DivisionByZero, and every other instruction leaves both alone. -/
theorem exec_run_cases {i : Instr} {s t : State} (h : exec i s = .next t) :
    (i = .hlt ∧ t.run = .halted ∧ t.fault = s.fault) ∨
    (dividesByZero i s ∧ t = s.raise .divisionByZero 0xA3 0) ∨
    (i ≠ .hlt ∧ ¬dividesByZero i s ∧ runKept s t) := by
  cases i with
  | hlt =>
    cases h
    exact .inl ⟨rfl, rfl, rfl⟩
  | div rA rB =>
    right
    by_cases h0 : s.getReg rB = 0
    · rw [exec_div_zero h0] at h
      cases h
      exact .inl ⟨⟨rA, rB, rfl, h0⟩, rfl⟩
    · rw [exec_div_ne h0] at h
      cases h
      refine .inr ⟨nofun, ?_, rfl, rfl⟩
      rintro ⟨rC, rD, heq, hD⟩
      cases heq
      exact h0 hD
  | jeq rA | jne rA =>
    simp only [exec_jeq, exec_jne] at h
    cases h
    exact .inr (.inr ⟨nofun, nofun, rfl, rfl⟩)
  | _ =>
    -- No remaining meaning mentions the run state or the fault record.
    cases h
    exact .inr (.inr ⟨nofun, nofun, rfl, rfl⟩)

/-- Every way a step can end in Faulted: an illegal opcode in Fault mode, an out-of-range register byte, or DIV by zero,
each of them the one operation `raise`. -/
theorem stepWith_faulted_cases {cfg : Config} {s t : State} (h : stepWith cfg s = .next t) (ht : t.run = .faulted) :
    (s.fetchDecode cfg = .illegalInstruction (s.memRead s.pc) ∧
      t = s.raise .illegalInstruction (s.memRead s.pc) 0) ∨
    (∃ b : Byte, 8 ≤ b.toNat ∧ s.fetchDecode cfg = .registerOutOfRange (s.memRead s.pc) b ∧
      t = s.raise .registerOutOfRange (s.memRead s.pc) b) ∨
    (∃ rA rB, s.fetchDecode cfg = .instr (.div rA rB) ∧ s.getReg rB = 0 ∧
      t = s.raise .divisionByZero (s.memRead s.pc) 0) := by
  obtain ⟨hrun, ⟨i, hd, hi⟩ | ⟨op, hd, rfl⟩ | ⟨op, b, hd, rfl⟩⟩ := stepWith_cases h
  · right; right
    obtain ⟨-, hhalt, -⟩ | ⟨⟨rA, rB, rfl, h0⟩, rfl⟩ | ⟨-, -, hkept, -⟩ := exec_run_cases hi
    · rw [hhalt] at ht
      cases ht
    · exact ⟨rA, rB, hd, h0, by rw [fetchDecode_instr hd]; rfl⟩
    · rw [hkept, hrun] at ht
      cases ht
  · left
    obtain rfl := fetchDecode_illegal hd
    obtain ⟨-, hop⟩ | ⟨-, hop⟩ := illegalOpcode_cases cfg s (s.memRead s.pc)
    · exact ⟨hd, hop⟩
    · rw [hop, hrun] at ht
      cases ht
  · right; left
    obtain ⟨rfl, hb⟩ := fetchDecode_badRegister hd
    exact ⟨b, hb, hd, rfl⟩

end Sys2Proof.Machine

open Sys2Proof Sys2Proof.Machine

/-- Settles O12: the fetch answers that the byte is illegal (`fetchDecode_unknown`), and the mode decides what is done
with it. -/
theorem illegalOpcodeFaultsOrStalls : Obligations.IllegalOpcodeFaultsOrStalls := by
  intro cfg s hrun hop
  have hstep := stepWith_illegal hrun (fetchDecode_unknown hop)
  refine ⟨fun hmode => ⟨_, hstep, ?_⟩, fun hmode => ?_⟩
  · rw [State.illegalOpcode, hmode]
    exact faultTaken_raise ..
  · rw [hstep, State.illegalOpcode, hmode]

/-- Settles O13: the operation's number of register operands decides which bytes are checked
(`stepWith_oneRegisterOp_cases`, `stepWith_twoRegisterOp_cases`); HLT and RET have none. -/
theorem outOfRangeRegisterBytesFault : Obligations.OutOfRangeRegisterBytesFault := by
  refine ⟨rfl, ?_⟩
  intro cfg s o hrun hdec b1 b2 one two
  refine ⟨fun ho hb1 => ?firstByte, fun ho hb1 hb2 => ?secondByte, ?inRange⟩
  case firstByte =>
    obtain ho | ho := List.mem_append.mp ho
    · obtain ⟨-, hstep⟩ | ⟨hlt, -⟩ := stepWith_oneRegisterOp_cases hrun hdec ho
      · exact ⟨_, hstep, faultTaken_raise ..⟩
      · exact absurd hlt (Nat.not_lt.mpr hb1)
    · obtain ⟨-, hstep⟩ | ⟨hlt, -⟩ := stepWith_twoRegisterOp_cases hrun hdec ho
      · exact ⟨_, hstep, faultTaken_raise ..⟩
      · exact absurd hlt (Nat.not_lt.mpr hb1)
  case secondByte =>
    obtain ⟨hge, -⟩ | ⟨-, ⟨-, hstep⟩ | ⟨hlt, -⟩⟩ := stepWith_twoRegisterOp_cases hrun hdec ho
    · exact absurd hb1 (Nat.not_lt.mpr hge)
    · exact ⟨_, hstep, faultTaken_raise ..⟩
    · exact absurd hlt (Nat.not_lt.mpr hb2)
  case inRange =>
    rintro (ho | ⟨ho, hb1⟩ | ⟨ho, hb1, hb2⟩)
    · exact stepWith_noRegisterOp hrun hdec ho
    · obtain ⟨hge, -⟩ | ⟨-, hexec⟩ := stepWith_oneRegisterOp_cases hrun hdec ho
      · exact absurd hb1 (Nat.not_lt.mpr hge)
      · exact hexec
    · obtain ⟨hge, -⟩ | ⟨-, ⟨hge, -⟩ | ⟨-, hexec⟩⟩ := stepWith_twoRegisterOp_cases hrun hdec ho
      · exact absurd hb1 (Nat.not_lt.mpr hge)
      · exact absurd hb2 (Nat.not_lt.mpr hge)
      · exact hexec

/-- Settles O14: DIV by zero is `raise` (`exec_div_zero`), and a Faulted core has no step. -/
theorem divisionByZeroFaults : Obligations.DivisionByZeroFaults := by
  refine ⟨rfl, fun rA rB s h0 => ⟨_, exec_div_zero h0, faultTaken_raise .., fun cfg u => ?_⟩⟩
  rw [stepWith_noStep (by simp)]
  nofun

/-- Settles O15: `stepWith_faulted_cases`, whose three cases are told apart by what the fetch answered. -/
theorem faultsArePreciseAndOrdered : Obligations.FaultsArePreciseAndOrdered := by
  intro cfg s t h ht
  obtain ⟨hd, rfl⟩ | ⟨b, hb, hd, rfl⟩ | ⟨rA, rB, hd, h0, rfl⟩ := stepWith_faulted_cases h ht
  · exact ⟨_, _, faultTaken_raise .., .inl ⟨rfl, rfl, hd⟩⟩
  · exact ⟨_, _, faultTaken_raise .., .inr (.inl ⟨rfl, hb, hd⟩)⟩
  · exact ⟨_, _, faultTaken_raise .., .inr (.inr ⟨rfl, rfl, rA, rB, hd, h0⟩)⟩

/-- Settles O16: a step into Faulted takes a fault, which keeps PC, registers and memory
(`faultsArePreciseAndOrdered`); what answers in Faulted is `act_faulted`. -/
theorem onlyResetLeavesFaulted : Obligations.OnlyResetLeavesFaulted := by
  refine fun cfg s t => ⟨fun h ht => ?_, fun a => act_faulted⟩
  obtain ⟨c, d, ⟨-, -, hpc, -, -, hregs, hmem⟩, -⟩ := faultsArePreciseAndOrdered cfg s t h ht
  exact ⟨hpc, hregs, hmem⟩

end

section
/-! PROOF. spec/41_load_output.md and spec/42_alu.md: LDI and the ALU's value instructions are one register write and
one advance, whose frame is stated once (`framed_setReg_advance`); what is left is the value each computes. -/

namespace Sys2Proof.Machine

/-- `t` keeps of `s` the registers and cells but those listed, and FL, output, run state and fault record. -/
def framed (rs : List Reg) (as : List Byte) (s t : State) : Prop :=
  regsKeptBut rs s t ∧ memKeptBut as s t ∧ t.fl = s.fl ∧ t.out = s.out ∧ runKept s t

/-- Writing one register and advancing touches that register and PC only. -/
theorem framed_setReg_advance (s : State) (r : Reg) (v len : Byte) : framed [r] [] s ((s.setReg r v).advance len) :=
  ⟨regsKeptBut_setReg_advance s r v len, fun _ _ => rfl, rfl, rfl, rfl, rfl⟩

/-- What every instruction that writes one register and advances leaves; only what is known of the value differs. -/
theorem exec_writes {i : Instr} {s : State} {r : Reg} {v : Byte} {len : Byte} {P : Byte → Prop}
    (h : exec i s = .next ((s.setReg r v).advance len)) (hv : P v) :
    ∃ t, exec i s = .next t ∧ P (t.getReg r) ∧ t.pc = s.pc + len ∧ framed [r] [] s t :=
  ⟨_, h, (getReg_setReg_self s r v).symm ▸ hv, rfl, framed_setReg_advance s r v len⟩

/-- The quotient of a byte by a divisor other than 0, and the remainder. -/
theorem toNat_div_add_mod {a b : Byte} (hb : b ≠ 0) :
    ∃ r, r < b.toNat ∧ a.toNat = b.toNat * (a / b).toNat + r := by
  refine ⟨a.toNat % b.toNat, Nat.mod_lt _ ?_, ?_⟩
  · exact Nat.pos_of_ne_zero fun h0 => hb (BitVec.eq_of_toNat_eq h0)
  · rw [BitVec.toNat_udiv, Nat.div_add_mod]

/-- The complement of a byte is 255 minus it. -/
theorem toNat_not_add (a : Byte) : (~~~a).toNat + a.toNat = 255 := by
  have := a.isLt
  rw [BitVec.toNat_not]
  omega

/-- A bit of a left shift is the bit as far below it, or 0 where there is none. -/
theorem getLsbD_shiftLeft_of_lt (a : Byte) (n : Nat) {k : Nat} (hk : k < 8) :
    (a <<< n).getLsbD k = (decide (n ≤ k) && a.getLsbD (k - n)) := by
  simp only [BitVec.getLsbD_shiftLeft, hk, decide_true, Bool.true_and, ← decide_not, Nat.not_lt]

end Sys2Proof.Machine

open Sys2Proof Sys2Proof.Machine

/-- Settles O17: LDI writes its immediate (`exec_writes`). -/
theorem ldiLoadsTheImmediate : Obligations.LdiLoadsTheImmediate :=
  fun rA imm s => exec_writes (P := (· = imm)) (exec_ldi rA imm s) rfl

/-- Settles O18: PRN emits and advances, and touches nothing else. -/
theorem prnEmitsTheRegister : Obligations.PrnEmitsTheRegister :=
  fun rA s => ⟨_, exec_prn rA s, rfl, rfl, fun _ _ => rfl, fun _ _ => rfl, rfl, rfl, rfl⟩

/-- Settles O21: each writes the exact result narrowed once. -/
theorem addSubMulAreModulo256 : Obligations.AddSubMulAreModulo256 := by
  intro rA rB s a b p hp
  simp only [List.mem_cons, List.not_mem_nil, or_false] at hp
  obtain rfl | rfl | rfl := hp
  · exact exec_writes (P := (·.toNat = (a + b) % 256)) (exec_add rA rB s) (BitVec.toNat_add ..)
  · refine exec_writes (P := (·.toNat = (a + 256 - b) % 256)) (exec_sub rA rB s) ?_
    rw [← aluSub_eq]
    exact toNat_trunc8 _
  · exact exec_writes (P := (·.toNat = a * b % 256)) (exec_mul rA rB s) (BitVec.toNat_mul ..)

/-- Settles O22: each writes the word-wise operation, whose bits are the operation's on the bits. -/
theorem andOrXorAreBitwise : Obligations.AndOrXorAreBitwise := by
  intro rA rB s a b p hp
  simp only [List.mem_cons, List.not_mem_nil, or_false] at hp
  obtain rfl | rfl | rfl := hp
  · exact exec_writes (P := fun v => ∀ k, v.getLsbD k = (a k && b k)) (exec_and rA rB s) fun _ => BitVec.getLsbD_and
  · exact exec_writes (P := fun v => ∀ k, v.getLsbD k = (a k || b k)) (exec_or rA rB s) fun _ => BitVec.getLsbD_or
  · exact exec_writes (P := fun v => ∀ k, v.getLsbD k = (a k != b k)) (exec_xor rA rB s) fun _ => BitVec.getLsbD_xor

/-- Settles O24: DIV with a divisor other than 0 writes the quotient. -/
theorem divGivesTheQuotient : Obligations.DivGivesTheQuotient :=
  fun rA rB s h0 => exec_writes
    (P := fun v => ∃ r, r < (s.getReg rB).toNat ∧ (s.getReg rA).toNat = (s.getReg rB).toNat * v.toNat + r)
    (exec_div_ne h0) (toNat_div_add_mod h0)

/-- Settles O25: NOT writes the complement. -/
theorem notComplementsTheRegister : Obligations.NotComplementsTheRegister :=
  fun rA s => exec_writes (P := (·.toNat + (s.getReg rA).toNat = 255)) (exec_not rA s) (toNat_not_add _)

/-- Settles O23: each writes the logical shift by the whole byte, which shifts every bit out from a count of 8 on. -/
theorem shiftsAreLogicalByTheWholeByte : Obligations.ShiftsAreLogicalByTheWholeByte := by
  intro rA rB s a n p hp
  simp only [List.mem_cons, List.not_mem_nil, or_false] at hp
  obtain rfl | rfl := hp
  · obtain ⟨t, ht, ⟨hbits, hzero⟩, hrest⟩ := exec_writes
      (P := fun v => (∀ k < 8, v.getLsbD k = (decide (n ≤ k) && a (k - n))) ∧ (8 ≤ n → v = 0)) (exec_shl rA rB s)
      ⟨fun _ hk => getLsbD_shiftLeft_of_lt _ n hk, BitVec.shiftLeft_eq_zero⟩
    exact ⟨t, ht, hbits, hzero, hrest⟩
  · obtain ⟨t, ht, ⟨hbits, hzero⟩, hrest⟩ := exec_writes
      (P := fun v => (∀ k < 8, v.getLsbD k = a (k + n)) ∧ (8 ≤ n → v = 0)) (exec_shr rA rB s)
      ⟨fun k _ => by rw [BitVec.getLsbD_ushiftRight, Nat.add_comm], BitVec.ushiftRight_eq_zero⟩
    exact ⟨t, ht, hbits, hzero, hrest⟩

end

section
/-! PROOF. spec/43_stack.md and spec/44_call_return.md: a push writes SP and the one cell below it, a pop writes its
register and SP; CALL and RET are a push and a pop with PC at the other end. -/

namespace Sys2Proof.Machine

/-- A push touches SP and the cell below it only. -/
theorem framed_push (s : State) (v : Byte) : framed [7] [s.pushAddress] s (s.decSp.storeAtSp v) :=
  ⟨regsKeptBut_decSp s, memKeptBut_decSp_storeAtSp s v, rfl, rfl, rfl, rfl⟩

/-- Incrementing SP touches SP only. -/
theorem framed_incSp (s : State) : framed [7] [] s s.incSp :=
  ⟨regsKeptBut_incSp s, fun _ _ => rfl, rfl, rfl, rfl, rfl⟩

/-- What a pop into `rA` leaves in a register: in `rA` the value popped, in SP one more than it then held. -/
theorem getReg_setReg_incSp (s : State) (rA r : Reg) (v : Byte) :
    (s.setReg rA v).incSp.getReg r =
      if r = 7 then (if rA = 7 then v else s.sp) + 1 else if r = rA then v else s.getReg r := by
  rw [getReg_incSp, sp_eq, getReg_setReg, getReg_setReg, sp_eq]
  simp only [eq_comm]

/-- A pop into `rA` touches `rA` and SP only. -/
theorem framed_setReg_incSp (s : State) (rA : Reg) (v : Byte) : framed [rA, 7] [] s (s.setReg rA v).incSp := by
  refine ⟨fun r hr => ?_, fun _ _ => rfl, rfl, rfl, rfl, rfl⟩
  simp only [List.mem_cons, List.not_mem_nil, or_false, not_or] at hr
  rw [getReg_setReg_incSp, if_neg hr.right, if_neg hr.left]

/-- A pop reads back what the push before it stored: for SP itself, the decremented SP, which the pop increments. -/
theorem getReg_push_pop (s : State) (rA r : Reg) :
    ((s.decSp.storeAtSp (s.decSp.getReg rA)).setReg rA (s.decSp.getReg rA)).incSp.getReg r = s.getReg r := by
  rw [getReg_setReg_incSp, sp_storeAtSp, sp_decSp, getReg_storeAtSp, getReg_decSp, getReg_decSp]
  by_cases h7 : r = 7
  · subst h7
    rw [if_pos rfl]
    by_cases hA : rA = 7
    · simp [hA, sp_eq]
    · simp [hA, sp_eq]
  · by_cases hA : r = rA
    · subst hA
      simp [h7]
    · simp [h7, hA]

end Sys2Proof.Machine

open Sys2Proof Sys2Proof.Machine

/-- Settles O27: PUSH stores its register, read after SP was decremented (`framed_push`). -/
theorem pushStoresBelowTheStackTop : Obligations.PushStoresBelowTheStackTop := by
  intro rA s
  refine ⟨_, exec_push rA s, sp_decSp s, ?_, rfl, rfl, framed_push s _⟩
  rw [← getReg_decSp]
  exact memRead_decSp_storeAtSp_self s _

/-- Settles O28: POP writes its register, then increments SP (`getReg_setReg_incSp`). -/
theorem popLoadsTheStackTop : Obligations.PopLoadsTheStackTop := by
  intro rA s
  have hreg := getReg_setReg_incSp s rA (v := s.memRead s.sp)
  refine ⟨_, exec_pop rA s, fun h7 => ⟨?_, ?_⟩, fun h7 => ?_, rfl, framed_setReg_incSp s rA _⟩
  · rw [getReg_advance, hreg, if_neg h7, if_pos rfl]
  · rw [sp_eq, getReg_advance, hreg, if_pos rfl, if_neg h7]
  · rw [sp_eq, getReg_advance, hreg, if_pos rfl, if_pos h7]

/-- Settles O29: POP finds at SP what PUSH stored there, so that every register is as before (`getReg_push_pop`). -/
theorem pushThenPopRestores : Obligations.PushThenPopRestores := by
  intro rA s
  let t := (s.decSp.storeAtSp (s.decSp.getReg rA)).advance 2
  have hcell : t.memRead t.sp = s.decSp.getReg rA := by
    show (s.decSp.storeAtSp _).memRead s.decSp.sp = _
    rw [sp_decSp, memRead_decSp_storeAtSp_self]
  have hpop := exec_pop rA t
  rw [hcell] at hpop
  have hpc : s.pc + 2 + 2 = s.pc + 4 := by rw [BitVec.add_assoc]; rfl
  obtain ⟨-, hmem, -⟩ := framed_push s (s.decSp.getReg rA)
  exact ⟨t, _, exec_push rA s, hpop, fun r _ => getReg_push_pop s rA r, hmem, rfl, rfl, ⟨rfl, rfl⟩, hpc⟩

/-- Settles O30: CALL pushes `pc + 2` and reads its target after the push (`framed_push`). -/
theorem callPushesTheReturnAddress : Obligations.CallPushesTheReturnAddress := by
  intro rA s
  exact ⟨_, exec_call rA s, getReg_decSp s rA, sp_decSp s, memRead_decSp_storeAtSp_self s (s.pc + 2), rfl,
    framed_push s _⟩

/-- Settles O31: RET is a pop into PC (`framed_incSp`). -/
theorem retPopsThePc : Obligations.RetPopsThePc :=
  fun s => ⟨_, exec_ret s, rfl, sp_incSp _, framed_incSp (s.setPc (s.memRead s.sp))⟩

end

section
/-! PROOF. spec/45_compare_branch.md, and spec/10_state.md R28 over whole runs: CMP writes FL and PC, a jump writes PC,
and all that a jump sees of FL is bit E. -/

namespace Sys2Proof.Machine

/-- Writing PC touches nothing else. -/
theorem framed_setPc (s : State) (v : Byte) : framed [] [] s (s.setPc v) :=
  ⟨fun _ _ => rfl, fun _ _ => rfl, rfl, rfl, rfl, rfl⟩

/-- Bit E is bit 0 of FL (R28). -/
theorem flagE_eq (s : State) : s.flagE = s.fl.getLsbD 0 := rfl

/-- Bit E as CMP leaves it. -/
theorem flagE_of_cmp {s u : State} {rA rB : Reg}
    (h : u.fl = if s.getReg rA = s.getReg rB then 1 else 0) : u.flagE = decide (s.getReg rA = s.getReg rB) := by
  rw [flagE_eq, h]
  split <;> simp_all

/-- JNE jumps exactly when JEQ does not. -/
theorem exec_jne_not (rA : Reg) (s : State) :
    exec (.jne rA) s = .next (s.setPc (if ¬s.flagE then s.getReg rA else s.pc + 2)) := by
  rw [exec_jne, ite_not]

/-- Taking an illegal opcode does not look at FL. -/
theorem illegalOpcode_setFl (cfg : Config) (s : State) (f op : Byte) :
    (s.setFl f).illegalOpcode cfg op = (s.illegalOpcode cfg op).setFl f := by
  unfold State.illegalOpcode
  cases cfg.illegalOpcodeMode <;> rfl

/-- Two states with the same bit E that differ in FL only step to two such states: CMP makes FL the same, every other
instruction keeps both values of FL. -/
theorem exec_setFl_bitE {i : Instr} {s t : State} {f : Byte} (hE : f.getLsbD 0 = s.fl.getLsbD 0)
    (h : exec i s = .next t) :
    ∃ g : Byte, exec i (s.setFl f) = .next (t.setFl g) ∧ g.getLsbD 0 = t.fl.getLsbD 0 := by
  by_cases hcmp : ∃ rA rB, i = .cmp rA rB
  · obtain ⟨rA, rB, rfl⟩ := hcmp
    exact ⟨t.fl, by rw [exec_cmp_setFl, h, setFl_fl_self], rfl⟩
  · have hcmp : ∀ rA rB, i ≠ .cmp rA rB := fun rA rB hi => hcmp ⟨rA, rB, hi⟩
    exact ⟨f, exec_setFl hcmp (fun _ => hE) h, by rw [exec_fl hcmp h, hE]⟩

/-- The same of a step, on every machine: the fetch does not look at FL, and neither does taking a fault. -/
theorem stepWith_setFl_bitE {cfg : Config} {s t : State} {f : Byte} (hE : f.getLsbD 0 = s.fl.getLsbD 0)
    (h : stepWith cfg s = .next t) :
    ∃ g : Byte, stepWith cfg (s.setFl f) = .next (t.setFl g) ∧ g.getLsbD 0 = t.fl.getLsbD 0 := by
  obtain ⟨hrun, ⟨i, hd, hi⟩ | ⟨op, hd, rfl⟩ | ⟨op, b, hd, rfl⟩⟩ := stepWith_cases h
  · rw [stepWith_instr (s := s.setFl f) hrun hd]
    exact exec_setFl_bitE hE hi
  · refine ⟨f, ?_, ?_⟩
    · rw [stepWith_illegal (s := s.setFl f) hrun hd, illegalOpcode_setFl]
    · obtain ⟨-, hop⟩ | ⟨-, hop⟩ := illegalOpcode_cases cfg s op <;> rw [hop] <;> exact hE
  · exact ⟨f, stepWith_badRegister (s := s.setFl f) hrun hd, hE⟩

end Sys2Proof.Machine

open Sys2Proof Sys2Proof.Machine

/-- Settles O38, by induction on the number of steps: one step keeps the relation (`stepWith_setFl_bitE`). -/
theorem reservedFlagBitsAreUnobservable : Obligations.ReservedFlagBitsAreUnobservable := by
  intro n
  induction n with
  | zero =>
    intro s t f hE h
    cases h
    exact ⟨f, rfl, hE⟩
  | succ n ih =>
    intro s t f hE h
    obtain ⟨u, hstep, hrun⟩ := core_run_succ h
    obtain ⟨g, hstep', hE'⟩ := stepWith_setFl_bitE hE hstep
    rw [core_run_next hstep']
    exact ih u t g hE' hrun

/-- Settles O33: FL is written by equality alone (`exec_cmp`), and 0 and 1 have neither bit G nor bit L. -/
theorem cmpSetsOnlyEquality : Obligations.CmpSetsOnlyEquality := by
  intro rA rB s
  refine ⟨_, exec_cmp rA rB s, fun h => if_pos h, fun h => if_neg h, ?_, ?_, rfl, fun _ _ => rfl, fun _ _ => rfl, rfl,
    rfl, rfl⟩
  all_goals
    simp only [State.flagG, State.flagL, advance_fl, setFl_fl]
    split <;> rfl

/-- Settles O34: JMP writes PC (`framed_setPc`). -/
theorem jmpSetsThePc : Obligations.JmpSetsThePc :=
  fun rA s => ⟨_, exec_jmp rA s, rfl, framed_setPc s _⟩

/-- Settles O35: the two jumps write PC by bit E (`framed_setPc`). -/
theorem conditionalJumpsTestEquality : Obligations.ConditionalJumpsTestEquality := by
  intro rA s
  refine ⟨⟨_, exec_jeq rA s, rfl, framed_setPc s _⟩, ⟨_, exec_jne rA s, ?_, framed_setPc s _⟩⟩
  rw [setPc_pc, flagE_eq]
  cases s.fl.getLsbD 0 <;> rfl

/-- Settles O36: a jump sees CMP's outcome in FL (`flagE_of_cmp`) as long as no other CMP ran, because only CMP writes
FL (`exec_fl`); FL's reset value has bit E clear. -/
theorem branchFollowsTheLastCompare : Obligations.BranchFollowsTheLastCompare := by
  refine ⟨fun rA rB rT s => ⟨_, exec_cmp rA rB s, fun u hu => ?_⟩, fun i s t => exec_fl, fun cfg rT s hs => ?_⟩
  · have hE : u.flagE = decide (s.getReg rA = s.getReg rB) := flagE_of_cmp hu
    refine ⟨⟨_, exec_jeq rT u, ?_⟩, ⟨_, exec_jne_not rT u, ?_⟩⟩ <;> rw [setPc_pc, hE] <;> simp only [decide_eq_true_eq]
  · have hfl : s.fl = 0 := hs
    have hE : s.flagE = false := by rw [flagE_eq, hfl]; decide
    refine ⟨⟨_, exec_jne rT s, ?_⟩, ⟨_, exec_jeq rT s, ?_⟩⟩ <;> rw [setPc_pc, hE] <;> rfl

end

section
/-! PROOF. spec/10_state.md R32 to R37: the rows of the run-state table that steps take; that no instruction reads the
output channel, the run state or the fault record; and the two hangs. -/

namespace Sys2Proof.Machine

/-- Everything a meaning does to the run state of a Running core: HLT halts it, DIV by zero faults it, every other
instruction keeps it Running. -/
theorem exec_run_of_running {i : Instr} {s t : State} (hr : s.run = .running) (h : exec i s = .next t) :
    (i = .hlt ∧ t.run = .halted) ∨ (dividesByZero i s ∧ t.run = .faulted) ∨
    (i ≠ .hlt ∧ ¬dividesByZero i s ∧ t.run = .running) := by
  obtain ⟨hi, ht, -⟩ | ⟨hi, rfl⟩ | ⟨hhlt, hdiv, ht, -⟩ := exec_run_cases h
  · exact .inl ⟨hi, ht⟩
  · exact .inr (.inl ⟨hi, raise_run ..⟩)
  · exact .inr (.inr ⟨hhlt, hdiv, ht.trans hr⟩)

/-- DIV by zero is not HLT. -/
theorem ne_hlt_of_dividesByZero {i : Instr} {s : State} (h : dividesByZero i s) : i ≠ .hlt := by
  obtain ⟨rA, rB, rfl, -⟩ := h
  nofun

/-- An instruction does not divide by zero when, being a DIV, it has a divisor other than 0. -/
theorem not_dividesByZero_iff {i : Instr} {s : State} :
    ¬dividesByZero i s ↔ ∀ rA rB, i = .div rA rB → s.getReg rB ≠ 0 := by
  simp [dividesByZero]

/-- A state with another output channel. -/
def State.withOut (s : State) (o : List Byte) : State := { s with out := o }

@[simp] theorem getReg_withOut (s : State) (o : List Byte) (r : Reg) : (s.withOut o).getReg r = s.getReg r := rfl

/-- A meaning appends the same values, at most one and only by PRN, whatever stood in the output channel. -/
theorem exec_withOut {i : Instr} {s t : State} (h : exec i s = .next t) :
    ∃ w, t.out = s.out ++ w ∧ (w = [] ∨ ∃ rA, i = .prn rA ∧ w = [s.getReg rA]) ∧
      ∀ o, exec i (s.withOut o) = .next (t.withOut (o ++ w)) := by
  cases i with
  | prn rA =>
    cases h
    exact ⟨[s.getReg rA], rfl, .inr ⟨rA, rfl, rfl⟩, fun _ => rfl⟩
  | div rA rB =>
    rw [exec_div] at h
    cases h
    refine ⟨[], ?_, .inl rfl, fun o => ?_⟩
    · rw [List.append_nil]
      split <;> rfl
    · rw [exec_div, getReg_withOut, List.append_nil]
      split <;> rfl
  | jeq rA | jne rA =>
    simp only [exec_jeq, exec_jne] at h ⊢
    cases h
    exact ⟨[], (List.append_nil _).symm, .inl rfl, fun o => by rw [List.append_nil]; rfl⟩
  | _ =>
    -- No remaining meaning mentions the output channel.
    cases h
    exact ⟨[], (List.append_nil _).symm, .inl rfl, fun o => by rw [List.append_nil]; rfl⟩

/-- Taking an illegal opcode does not look at the output channel. -/
theorem illegalOpcode_withOut (cfg : Config) (s : State) (o : List Byte) (op : Byte) :
    (s.withOut o).illegalOpcode cfg op = (s.illegalOpcode cfg op).withOut o := by
  unfold State.illegalOpcode
  cases cfg.illegalOpcodeMode <;> rfl

/-- The same of a step: neither the fetch nor taking a fault looks at the channel. -/
theorem stepWith_withOut {cfg : Config} {s t : State} (h : stepWith cfg s = .next t) :
    ∃ w, t.out = s.out ++ w ∧ (w = [] ∨ ∃ rA, s.fetchDecode cfg = .instr (.prn rA) ∧ w = [s.getReg rA]) ∧
      ∀ o, stepWith cfg (s.withOut o) = .next (t.withOut (o ++ w)) := by
  obtain ⟨hrun, ⟨i, hd, hi⟩ | ⟨op, hd, rfl⟩ | ⟨op, b, hd, rfl⟩⟩ := stepWith_cases h
  · obtain ⟨w, hout, hw, hany⟩ := exec_withOut hi
    refine ⟨w, hout, hw.imp_right ?_, fun o => ?_⟩
    · rintro ⟨rA, rfl, hreg⟩
      exact ⟨rA, hd, hreg⟩
    · rw [stepWith_instr (s := s.withOut o) hrun hd, hany]
  · refine ⟨[], ?_, .inl rfl, fun o => ?_⟩
    · rw [illegalOpcode_out, List.append_nil]
    · rw [stepWith_illegal (s := s.withOut o) hrun hd, illegalOpcode_withOut, List.append_nil]
  · refine ⟨[], (List.append_nil _).symm, .inl rfl, fun o => ?_⟩
    rw [stepWith_badRegister (s := s.withOut o) hrun hd, List.append_nil]
    rfl

/-- A state with another run state and another fault record. -/
def State.withRunFault (s : State) (r : RunState) (f : Option FaultRecord) : State := { s with run := r, fault := f }

/-- A meaning other than HLT's and DIV's by zero commutes with replacing the run state and the fault record. -/
theorem exec_withRunFault {i : Instr} {s t : State} (hhlt : i ≠ .hlt) (hdiv : ¬dividesByZero i s)
    (h : exec i s = .next t) (r : RunState) (f : Option FaultRecord) :
    exec i (s.withRunFault r f) = .next (t.withRunFault r f) := by
  cases i with
  | hlt => exact absurd rfl hhlt
  | div rA rB =>
    have h0 : s.getReg rB ≠ 0 := not_dividesByZero_iff.mp hdiv rA rB rfl
    rw [exec_div_ne h0] at h
    cases h
    exact exec_div_ne (s := s.withRunFault r f) h0
  | jeq rA | jne rA =>
    simp only [exec_jeq, exec_jne] at h ⊢
    cases h
    rfl
  | _ =>
    -- No remaining meaning mentions the run state or the fault record.
    cases h
    rfl

/-- A step that answers its own state answers it for ever. -/
theorem runFor_of_stepWith_self {cfg : Config} {s : State} (h : stepWith cfg s = .next s) (n : Nat) :
    runFor cfg n s = s := by
  induction n with
  | zero => rfl
  | succ n ih => simpa only [runFor, h] using ih

/-- The same of this hardware's runs. -/
theorem core_run_of_step_self {s : State} (h : step s = .next s) (n : Nat) : Sys2Proof.core.run n s = .next s := by
  induction n with
  | zero => rfl
  | succ n ih => rw [core_run_next h, ih]

/-- In Stall mode a step on an illegal opcode answers its own state. -/
theorem stepWith_stall {cfg : Config} {s : State} (hr : s.run = .running) (hmode : cfg.illegalOpcodeMode = .stall)
    (hop : ∀ o : Op, o.enabled cfg = true → o.opcode ≠ s.memRead s.pc) : stepWith cfg s = .next s :=
  (illegalOpcodeFaultsOrStalls cfg s hr hop).right hmode

/-- A JMP to its own address answers its own state. -/
theorem stepWith_jmp_self {cfg : Config} {s : State} {rA : Reg} (hr : s.run = .running)
    (hop : s.memRead s.pc = 0x54) (hb1 : s.memRead (s.pc + 1) = registerByte rA) (hreg : s.getReg rA = s.pc) :
    stepWith cfg s = .next s := by
  have hd : s.fetchDecode cfg = .instr (.jmp rA) := by
    rw [fetchDecode_opcode (o := .jmp) (Op.enabled_of_base cfg rfl) hop, hb1]
    exact decodeF1R_registerByte _ rA _
  rw [stepWith_instr hr hd, exec_jmp, hreg]
  rfl

end Sys2Proof.Machine

open Sys2Proof Sys2Proof.Machine

/-- Settles O39: HLT writes the run state and advances. -/
theorem hltHaltsTheCore : Obligations.HltHaltsTheCore :=
  fun s => ⟨_, exec_hlt s, rfl, rfl, rfl, fun _ _ => rfl, fun _ _ => rfl, rfl, rfl⟩

/-- Settles O40: by what the fetch answered; an instruction's row of the table is `exec_run_of_running`, an illegal
opcode's depends on the mode, and an out-of-range register always faults. -/
theorem stepsFollowTheRunStateTable : Obligations.StepsFollowTheRunStateTable := by
  intro cfg s t h
  obtain ⟨hrun, ⟨i, hd, hi⟩ | ⟨op, hd, rfl⟩ | ⟨op, b, hd, rfl⟩⟩ := stepWith_cases h
  · rw [hd]
    simp only [Decoded.instr.injEq, reduceCtorEq, false_and, exists_false, or_false, exists_eq_left',
      ← not_dividesByZero_iff]
    obtain ⟨rfl, ht⟩ | ⟨hdiv, ht⟩ | ⟨hhlt, hdiv, ht⟩ := exec_run_of_running hrun hi
    · simp [ht]
    · simp [ht, hdiv, ne_hlt_of_dividesByZero hdiv]
    · simp [ht, hhlt, hdiv]
  · obtain ⟨hmode, hop⟩ | ⟨hmode, hop⟩ := illegalOpcode_cases cfg s op
    · simp [hop, hd, hmode]
    · simp [hop, hd, hmode, hrun]
  · simp [hd]

/-- Settles O42: the output channel by `stepWith_withOut`, the run state and the fault record by `exec_withRunFault`;
HLT and DIV by zero overwrite what they would have had to read. -/
theorem outputIsAppendOnlyAndUnread : Obligations.OutputIsAppendOnlyAndUnread := by
  refine ⟨fun cfg s t => stepWith_withOut, ?_⟩
  intro i s t r f h dividesByZero
  refine ⟨fun hhlt hdiv => exec_withRunFault hhlt hdiv h r f, ?_, ?_⟩
  · rintro rfl
    cases h
    rfl
  · rintro ⟨rA, rB, rfl, h0⟩
    rw [exec_div_zero h0] at h
    cases h
    exact exec_div_zero (s := s.withRunFault r f) h0

/-- Settles O43: each hang's step answers its own state (`stepWith_stall`, `stepWith_jmp_self`), and so do any number of
them. -/
theorem hangsChangeNothingForEver : Obligations.HangsChangeNothingForEver := by
  intro cfg s hr hhang
  have hstep : stepWith cfg s = .next s := by
    obtain ⟨hmode, hop⟩ | ⟨rA, hop, hb1, hreg⟩ := hhang
    · exact stepWith_stall hr hmode hop
    · exact stepWith_jmp_self hr hop hb1 hreg
  refine ⟨hstep, runFor_of_stepWith_self hstep, ?_⟩
  rintro rfl
  exact core_run_of_step_self hstep

end

section
/-! PROOF. The invariant of spec/10_state.md R28 to R33 and spec/60_exceptions.md R220 to R226: reset meets it, every
step and every host action keeps it, so that it holds along every sequence of them. -/

namespace Sys2Proof.Machine

/-- Reset leaves memory canonical, FL 0, and no fault record outside Faulted. -/
theorem inv_resetWith (cfg : Config) : (State.resetWith cfg).Inv :=
  ⟨wf_resetWith cfg, .inl rfl, nofun⟩

/-- Outside Faulted the fault record is legal exactly when there is none. -/
theorem faultLegal_iff_of_not_faulted {s : State} (hr : s.run ≠ .faulted) : s.faultLegal ↔ s.fault = none := by
  unfold State.faultLegal
  cases s.fault with
  | none => simp [hr]
  | some f => simp [hr]

/-- A legal FL stays legal over every meaning: CMP writes 0 or 1, and nothing else writes it. -/
theorem exec_flLegal {i : Instr} {s t : State} (hs : s.flLegal) (h : exec i s = .next t) : t.flLegal := by
  by_cases hcmp : ∃ rA rB, i = .cmp rA rB
  · obtain ⟨rA, rB, rfl⟩ := hcmp
    rw [exec_cmp] at h
    cases h
    show (if _ then _ else _) = _ ∨ (if _ then _ else _) = _
    split
    · exact .inr rfl
    · exact .inl rfl
  · rw [State.flLegal, exec_fl (fun rA rB hi => hcmp ⟨rA, rB, hi⟩) h]
    exact hs

/-- A state that takes a fault has a legal record, if the record names the opcode at PC and the detail of its cause. -/
theorem inv_raise {s : State} {c : Cause} {d : Byte} (hs : s.Inv)
    (hcd : (c = .illegalInstruction ∧ d = 0) ∨ (c = .registerOutOfRange ∧ 8 ≤ d.toNat) ∨
      (c = .divisionByZero ∧ s.memRead s.pc = 0xA3 ∧ d = 0)) : (s.raise c (s.memRead s.pc) d).Inv :=
  ⟨hs.memory, hs.flags, rfl, rfl, rfl, hcd⟩

/-- A step that does not end in Faulted leaves the fault record as it was. -/
theorem stepWith_fault_of_not_faulted {cfg : Config} {s t : State} (h : stepWith cfg s = .next t)
    (ht : t.run ≠ .faulted) : t.fault = s.fault := by
  obtain ⟨-, ⟨i, -, hi⟩ | ⟨op, -, rfl⟩ | ⟨op, b, -, rfl⟩⟩ := stepWith_cases h
  · obtain ⟨-, -, hkept⟩ | ⟨-, rfl⟩ | ⟨-, -, -, hkept⟩ := exec_run_cases hi
    · exact hkept
    · exact absurd (raise_run ..) ht
    · exact hkept
  · obtain ⟨-, hop⟩ | ⟨-, hop⟩ := illegalOpcode_cases cfg s op
    · rw [hop] at ht
      exact absurd (raise_run ..) ht
    · rw [hop]
  · exact absurd (raise_run ..) ht

/-- A step keeps memory canonical and FL legal. -/
theorem stepWith_wf_flLegal {cfg : Config} {s t : State} (hs : s.Inv) (h : stepWith cfg s = .next t) :
    Memory.wf t.mem = true ∧ t.flLegal := by
  obtain ⟨-, ⟨i, -, hi⟩ | ⟨op, -, rfl⟩ | ⟨op, b, -, rfl⟩⟩ := stepWith_cases h
  · exact ⟨exec_wf hi hs.memory, exec_flLegal hs.flags hi⟩
  · obtain ⟨-, hop⟩ | ⟨-, hop⟩ := illegalOpcode_cases cfg s op <;> rw [hop] <;> exact ⟨hs.memory, hs.flags⟩
  · exact ⟨hs.memory, hs.flags⟩

/-- Every step keeps the invariant: one that ends in Faulted wrote its record by `raise`, any other started in Running,
hence without a record, and wrote none. -/
theorem stepWith_inv {cfg : Config} {s t : State} (hs : s.Inv) (h : stepWith cfg s = .next t) : t.Inv := by
  by_cases ht : t.run = .faulted
  · obtain ⟨-, rfl⟩ | ⟨b, hb, -, rfl⟩ | ⟨rA, rB, hd, -, rfl⟩ := stepWith_faulted_cases h ht
    · exact inv_raise hs (.inl ⟨rfl, rfl⟩)
    · exact inv_raise hs (.inr (.inl ⟨rfl, hb⟩))
    · exact inv_raise hs (.inr (.inr ⟨rfl, fetchDecode_instr hd, rfl⟩))
  · obtain ⟨hmem, hfl⟩ := stepWith_wf_flLegal hs h
    have hrun : s.run ≠ .faulted := by simp [(stepWith_cases h).left]
    have hnone : s.fault = none := (faultLegal_iff_of_not_faulted hrun).mp hs.fault
    exact ⟨hmem, hfl, (faultLegal_iff_of_not_faulted ht).mpr ((stepWith_fault_of_not_faulted h ht).trans hnone)⟩

/-- A change of memory and run state in Idle keeps the invariant, if memory stays canonical and the core does not become
Faulted. -/
theorem inv_of_idle {s t : State} (hs : s.Inv) (hr : s.run = .idle) (hmem : Memory.wf t.mem = true)
    (hfl : t.fl = s.fl) (hfault : t.fault = s.fault) (ht : t.run ≠ .faulted) : t.Inv := by
  have hnone : s.fault = none := (faultLegal_iff_of_not_faulted (by simp [hr])).mp hs.fault
  refine ⟨hmem, ?_, (faultLegal_iff_of_not_faulted ht).mpr (hfault.trans hnone)⟩
  rw [State.flLegal, hfl]
  exact hs.flags

/-- Everything that can happen to the core keeps the invariant. -/
theorem act_inv {cfg : Config} {a : HostAction} {s t : State} (hs : s.Inv) (h : act cfg a s = .next t) : t.Inv := by
  obtain ⟨-, rfl⟩ | ⟨img, -, hr, rfl | ⟨hlen, rfl⟩⟩ | ⟨-, hr, rfl⟩ | ⟨-, hstep⟩ | ⟨-, -, rfl⟩ | ⟨-, rfl⟩ := act_cases h
  · exact inv_resetWith cfg
  · exact hs
  · have hwf := Memory.wf_writeImage (k := 0) hs.memory ((Nat.zero_add _).trans_le hlen)
    exact inv_of_idle hs hr hwf rfl rfl (by simp [hr])
  · exact inv_of_idle hs hr hs.memory rfl rfl nofun
  · exact stepWith_inv hs hstep
  · exact hs
  · exact hs

end Sys2Proof.Machine

open Sys2Proof Sys2Proof.Machine

/-- Settles O46 by `inv_resetWith`. -/
theorem resetMeetsTheInvariant : Obligations.ResetMeetsTheInvariant := inv_resetWith

/-- Settles O47 by `stepWith_inv`. -/
theorem stepKeepsTheInvariant : Obligations.StepKeepsTheInvariant := fun _ _ _ => stepWith_inv

/-- Settles O48, by induction on the sequence from any state that meets the invariant: its first action keeps it
(`act_inv`). -/
theorem invariantHoldsUnderEveryHostSequence : Obligations.InvariantHoldsUnderEveryHostSequence := by
  intro cfg as s
  generalize hu : State.resetWith cfg = u
  have hinv : u.Inv := hu ▸ inv_resetWith cfg
  clear hu
  induction as generalizing u with
  | nil =>
    intro h
    cases h
    exact hinv
  | cons a as ih =>
    intro h
    rw [List.foldlM_cons] at h
    cases hact : act cfg a u with
    | next v =>
      rw [hact] at h
      exact ih v (act_inv hinv hact) h
    | fault r =>
      rw [hact] at h
      cases h
    | refused r =>
      rw [hact] at h
      cases h

end

section
/-! PROOF. spec/41_load_output.md R132: the decimal digits of a byte are the characters of a list of numbers below 10,
which denotes the byte. Printing is stated on that list, and reading decimal text goes through it as well. -/

namespace Sys2Proof.Machine

theorem toNat_digitChar {d : Nat} (hd : d < 10) : (digitChar d).toNat = 48 + d := by
  revert d
  decide

/-- The values of the digits that `decimalDigits` prints. -/
def decimalValues (n : Nat) : List Nat :=
  if n ≥ 100 then [n / 100, n / 10 % 10, n % 10] else if n ≥ 10 then [n / 10, n % 10] else [n]

theorem decimalDigits_eq_map (v : Byte) : decimalDigits v = (decimalValues v.toNat).map digitChar := by
  simp only [decimalDigits, decimalValues]
  split
  · rfl
  split <;> rfl

theorem decimalValues_lt {n : Nat} (hn : n < 1000) : ∀ d ∈ decimalValues n, d < 10 := by
  unfold decimalValues
  repeat' split
  all_goals
    simp only [List.forall_mem_cons, List.not_mem_nil, false_imp_iff, implies_true, and_true]
    omega

theorem length_decimalValues (n : Nat) : (decimalValues n).length ∈ [1, 2, 3] := by
  unfold decimalValues
  repeat' split
  all_goals simp

theorem foldl_decimalValues (n : Nat) : (decimalValues n).foldl (fun n d => 10 * n + d) 0 = n := by
  unfold decimalValues
  repeat' split
  all_goals
    simp only [List.foldl_cons, List.foldl_nil]
    omega

/-- No leading zero but that of `0` itself. -/
theorem decimalValues_of_head_zero {n : Nat} (h : (decimalValues n).head? = some 0) : n = 0 := by
  unfold decimalValues at h
  split at h
  · simp only [List.head?_cons, Option.some.injEq] at h
    omega
  split at h
  · simp only [List.head?_cons, Option.some.injEq] at h
    omega
  · simpa using h

theorem decimalValues_byte_lt (v : Byte) : ∀ d ∈ decimalValues v.toNat, d < 10 :=
  decimalValues_lt (v.isLt.trans (by decide))

/-- Reading off the digit characters is reading off their values. -/
theorem foldl_map_digitChar {ds : List Nat} (hds : ∀ d ∈ ds, d < 10) (n : Nat) :
    (ds.map digitChar).foldl (fun n c => 10 * n + (c.toNat - 48)) n = ds.foldl (fun n d => 10 * n + d) n := by
  induction ds generalizing n with
  | nil => rfl
  | cons d ds ih =>
    obtain ⟨hd, hds⟩ := List.forall_mem_cons.mp hds
    rw [List.map_cons, List.foldl_cons, List.foldl_cons, toNat_digitChar hd, Nat.add_sub_cancel_left, ih hds]

/-- The characters that `decimalDigits` prints are those of decimal digits. -/
theorem mem_decimalDigits {v : Byte} {c : Char} (hc : c ∈ decimalDigits v) : 48 ≤ c.toNat ∧ c.toNat ≤ 57 := by
  rw [decimalDigits_eq_map, List.mem_map] at hc
  obtain ⟨d, hd, rfl⟩ := hc
  have hlt := decimalValues_byte_lt v d hd
  rw [toNat_digitChar hlt]
  omega

/-- A text that starts with the character `0` is that of the byte 0. -/
theorem decimalDigits_of_head_zero {v : Byte} (h : (decimalDigits v).head? = some '0') : v = 0 := by
  rw [decimalDigits_eq_map, List.head?_map, Option.map_eq_some_iff] at h
  obtain ⟨d, hd, hchar⟩ := h
  have hlt := decimalValues_byte_lt v d (List.mem_of_head? hd)
  have hzero : 48 + d = 48 := (toNat_digitChar hlt).symm.trans (congrArg Char.toNat hchar)
  obtain rfl : d = 0 := by omega
  exact BitVec.eq_of_toNat_eq (decimalValues_of_head_zero hd)

end Sys2Proof.Machine

open Sys2Proof Sys2Proof.Machine

/-- Settles O53: the digits of a value are the characters of `decimalValues`, which denotes it; the lines append because
rendering maps each value on its own. -/
theorem outputRendersAsDecimalLines : Obligations.OutputRendersAsDecimalLines := by
  refine ⟨fun v => ⟨?denotes, ?length, fun c => mem_decimalDigits, fun h => ?noLeadingZero⟩, rfl, fun v out => ?append⟩
  case denotes =>
    rw [decimalDigits_eq_map, foldl_map_digitChar (decimalValues_byte_lt v), foldl_decimalValues]
  case length =>
    rw [decimalDigits_eq_map, List.length_map]
    exact length_decimalValues _
  case noLeadingZero =>
    obtain rfl := decimalDigits_of_head_zero h
    exact ⟨rfl, rfl⟩
  case append =>
    simp [renderOutput]

end

section
/-! PROOF. spec/30_encoding.md R93: the reader parts an assembly text where the printer joined it, at the one space and
at the comma, and reads each part back: the mnemonic, a register, a decimal immediate. -/

namespace Sys2Proof.Machine

theorem splitAtFirst_none {sep : Char} {l : List Char} (h : sep ∉ l) : splitAtFirst sep l = (l, none) := by
  induction l with
  | nil => rfl
  | cons c l ih =>
    obtain ⟨hc, hl⟩ := not_or.mp (List.mem_cons.not.mp h)
    rw [splitAtFirst, if_neg (Ne.symm hc), ih hl]

theorem splitAtFirst_some {sep : Char} {l : List Char} (h : sep ∉ l) (r : List Char) :
    splitAtFirst sep (l ++ sep :: r) = (l, some r) := by
  induction l with
  | nil => exact if_pos rfl
  | cons c l ih =>
    obtain ⟨hc, hl⟩ := not_or.mp (List.mem_cons.not.mp h)
    rw [List.cons_append, splitAtFirst, if_neg (Ne.symm hc), ih hl]

theorem digitValue_digitChar {d : Nat} (hd : d < 10) : digitValue (digitChar d) = some d := by
  revert d
  decide

theorem digitsValue_map_digitChar {ds : List Nat} (hds : ∀ d ∈ ds, d < 10) (n : Nat) :
    digitsValue 10 n (ds.map digitChar) = some (ds.foldl (fun n d => 10 * n + d) n) := by
  induction ds generalizing n with
  | nil => rfl
  | cons d ds ih =>
    obtain ⟨hd, hds⟩ := List.forall_mem_cons.mp hds
    simp only [List.map_cons, digitsValue, digitValue_digitChar hd, if_pos hd]
    exact ih hds _

/-- The decimal text of a byte denotes it. -/
theorem numberText_decimalDigits (v : Byte) : numberText 10 (decimalDigits v) = some v.toNat := by
  have hvalue : digitsValue 10 0 (decimalDigits v) = some v.toNat := by
    rw [decimalDigits_eq_map, digitsValue_map_digitChar (decimalValues_byte_lt v), foldl_decimalValues]
  cases hds : decimalDigits v with
  | nil =>
    have hlen := length_decimalValues v.toNat
    rw [← List.length_map (f := digitChar), ← decimalDigits_eq_map, hds] at hlen
    simp at hlen
  | cons c cs => rwa [hds] at hvalue

/-- A decimal number is read as its value unless a zero leads it, as one leads the marks `0x` and `0b` of the other
bases. -/
theorem readImm_of_numberText {cs : List Char} {v : Byte} (hlead : ∀ c rest, cs ≠ '0' :: c :: rest)
    (hn : numberText 10 cs = some v.toNat) : readImm cs = some v := by
  have hle : v.toNat ≤ 255 := Nat.le_of_lt_succ v.isLt
  unfold readImm
  split
  · exact absurd rfl (hlead _ _)
  · exact absurd rfl (hlead _ _)
  · simp only [hn, if_pos hle]
    exact congrArg some (BitVec.ofNat_toNat ..)

/-- An immediate printed in decimal reads back. -/
theorem readImm_decimalDigits (v : Byte) : readImm (decimalDigits v) = some v := by
  refine readImm_of_numberText (fun c rest h => ?_) (numberText_decimalDigits v)
  obtain rfl := decimalDigits_of_head_zero (by rw [h]; rfl)
  cases h

theorem readReg_regText (r : Reg) : readReg (regText r) = some (registerByte r) := by
  revert r
  decide

theorem comma_not_mem_regText (r : Reg) : ',' ∉ regText r := by
  revert r
  decide

theorem space_not_mem_mnemonic (o : Op) : ' ' ∉ mnemonic o := by cases o <;> decide

/-- A mnemonic names its operation, and no other before it in the map. -/
theorem find_mnemonic (o : Op) : Op.all.find? (fun p => mnemonic p == mnemonic o) = some o := by cases o <;> decide

/-- The text after the mnemonic and the space, for the instructions that have operands. -/
def operandText (i : Instr) : Option (List Char) :=
  match i with
  | .hlt | .ret => none
  | .ldi rA imm => some (regText rA ++ ',' :: decimalDigits imm)
  | .prn rA | .not rA | .push rA | .pop rA | .call rA | .jmp rA | .jeq rA | .jne rA => some (regText rA)
  | .add rA rB | .sub rA rB | .mul rA rB | .div rA rB | .cmp rA rB | .and rA rB | .or rA rB | .xor rA rB
  | .shl rA rB | .shr rA rB => some (regText rA ++ ',' :: regText rB)

/-- The reader parts an assembly text into its mnemonic and its operand text. -/
theorem splitAtFirst_asmText (i : Instr) : splitAtFirst ' ' (asmText i) = (mnemonic i.op, operandText i) := by
  have hsplit := splitAtFirst_some (space_not_mem_mnemonic i.op)
  cases i with
  | hlt => exact splitAtFirst_none (space_not_mem_mnemonic .hlt)
  | ret => exact splitAtFirst_none (space_not_mem_mnemonic .ret)
  | _ =>
    simp only [asmText, List.append_assoc, List.singleton_append]
    exact hsplit _

theorem readOperands_f2rr (r q : Reg) :
    readOperands .f2rr (some (regText r ++ ',' :: regText q)) = some (registerByte r, registerByte q) := by
  simp [readOperands, splitAtFirst_some (comma_not_mem_regText r), readReg_regText]

theorem readOperands_f2ri (r : Reg) (v : Byte) :
    readOperands .f2ri (some (regText r ++ ',' :: decimalDigits v)) = some (registerByte r, v) := by
  simp [readOperands, splitAtFirst_some (comma_not_mem_regText r), readReg_regText, readImm_decimalDigits]

/-- The operand text of an instruction reads back as its operand bytes, 0 standing for one it does not have. -/
theorem readOperands_operandText (i : Instr) :
    readOperands i.op.row.format (operandText i) = some (i.operandBytes.getD 0 0, i.operandBytes.getD 1 0) := by
  cases i with
  | hlt | ret => rfl
  | ldi rA imm => exact readOperands_f2ri rA imm
  | prn rA | not rA | push rA | pop rA | call rA | jmp rA | jeq rA | jne rA =>
    exact congrArg (Option.map _) (readReg_regText rA)
  | add rA rB | sub rA rB | mul rA rB | div rA rB | cmp rA rB | and rA rB | or rA rB | xor rA rB | shl rA rB
  | shr rA rB => exact readOperands_f2rr rA rB

end Sys2Proof.Machine

open Sys2Proof Sys2Proof.Machine

/-- Settles O6: the text parts into mnemonic and operand text (`splitAtFirst_asmText`), which read back as the operation
and its operand bytes, and these decode to the instruction (`decodeOperands_operandBytes`). -/
theorem assemblyTextReadsBack : Obligations.AssemblyTextReadsBack := by
  intro i
  have hdec := decodeOperands_operandBytes i i.op.opcode []
  rw [List.append_nil] at hdec
  simp only [readAsm, splitAtFirst_asmText, find_mnemonic, readOperands_operandText, hdec]

end

section
/-! PROOF. spec/70_reset_and_hazards.md R250 and R252: the state reset leaves, and the state that reset, load and run
lead to. -/

namespace Sys2Proof.Machine

/-- After reset every register but SP holds 0. -/
theorem getReg_resetWith (cfg : Config) {r : Reg} (hr : r ≠ 7) : (State.resetWith cfg).getReg r = 0 := by
  match r, hr with
  | 0, _ | 1, _ | 2, _ | 3, _ | 4, _ | 5, _ | 6, _ => rfl
  | 7, hr => exact absurd rfl hr

/-- The launch state of an image that fits: the loaded reset state, Running. -/
theorem launch_eq (cfg : Config) {img : List Byte} (h : img.length ≤ maxImage) :
    launch cfg img = some (({ State.resetWith cfg with
      mem := Memory.writeImage (State.resetWith cfg).mem 0 img } : State).setRun .running) := by
  rw [launch, hostLoad_idle rfl h]
  rfl

/-- An image that is too long does not launch. -/
theorem launch_tooLong (cfg : Config) {img : List Byte} (h : maxImage < img.length) : launch cfg img = none := by
  rw [launch, hostLoad_tooLong rfl h]

end Sys2Proof.Machine

open Sys2Proof Sys2Proof.Machine

/-- Settles O49: reset's fields are the table's; the registers other than SP are `getReg_resetWith`. -/
theorem resetLeavesTheTablesValues : Obligations.ResetLeavesTheTablesValues := by
  intro cfg s
  exact ⟨fun _ => rfl, fun _ => getReg_resetWith cfg, rfl, rfl, rfl, rfl, rfl, rfl, rfl, rfl⟩

/-- Settles O51: the launch state is `launch_eq`, its memory that of a load over reset's
(`memRead_writeImage_zero`). -/
theorem launchStateOfAnImage : Obligations.LaunchStateOfAnImage := by
  intro cfg img
  refine ⟨fun hlen => ⟨_, launch_eq cfg hlen, rfl, rfl, ?_, rfl, rfl, rfl, rfl⟩, launch_tooLong cfg⟩
  exact memRead_writeImage_zero img (State.resetWith cfg)

end

section
/-! PROOF. spec/30_encoding.md R95 and spec/60_exceptions.md R241: the loader parts the text of an image into its lines,
and each line, which has neither comment nor white space, is the binary number of its byte. -/

namespace Sys2Proof.Machine

/-- A line that holds no newline is parted from the text after it. -/
theorem splitLines_line {l : List Char} (h : '\n' ∉ l) (rest : List Char) :
    splitLines (l ++ '\n' :: rest) = l :: splitLines rest := by
  induction l with
  | nil => exact if_pos rfl
  | cons c l ih =>
    obtain ⟨hc, hl⟩ := not_or.mp (List.mem_cons.not.mp h)
    rw [List.cons_append, splitLines, if_neg (Ne.symm hc), ih hl]

/-- Every character of the text of a byte is a binary digit. -/
theorem mem_binaryDigits {b : Byte} {c : Char} (h : c ∈ binaryDigits b) : c = '0' ∨ c = '1' := by
  obtain ⟨k, -, rfl⟩ := List.mem_map.mp h
  split
  · exact .inr rfl
  · exact .inl rfl

theorem newline_not_mem_binaryDigits (b : Byte) : '\n' ∉ binaryDigits b := by
  intro h
  obtain h | h := mem_binaryDigits h <;> cases h

/-- The lines of the text of an image are its bytes' texts, and the empty rest after the last newline. -/
theorem splitLines_imageText (img : List Byte) : splitLines (imageText img) = img.map binaryDigits ++ [[]] := by
  induction img with
  | nil => rfl
  | cons b img ih =>
    have htext : imageText (b :: img) = binaryDigits b ++ '\n' :: imageText img := by simp [imageText]
    rw [htext, splitLines_line (newline_not_mem_binaryDigits b), ih]
    rfl

/-- A list none of whose elements is dropped stays. -/
theorem dropWhile_eq_self_of_forall {α : Type} {p : α → Bool} {l : List α} (h : ∀ x ∈ l, p x = false) :
    l.dropWhile p = l :=
  List.dropWhile_eq_self_iff.mpr fun hl => Bool.not_eq_true _ ▸ h _ (List.getElem_mem hl)

/-- A line without comment and white space is its own token. -/
theorem lineToken_eq_self {l : List Char} (hcomment : '#' ∉ l) (hblank : ∀ c ∈ l, isBlank c = false) :
    lineToken l = l := by
  have htake : l.takeWhile (· ≠ '#') = l := by
    refine List.takeWhile_eq_self_iff.mpr fun c hc => ?_
    simpa using ne_of_mem_of_not_mem hc hcomment
  have hblank' : ∀ c ∈ l.reverse, isBlank c = false := fun c hc => hblank c (List.mem_reverse.mp hc)
  rw [lineToken, htake, dropWhile_eq_self_of_forall hblank, dropWhile_eq_self_of_forall hblank', List.reverse_reverse]

/-- The text of a byte is its own token. -/
theorem lineToken_binaryDigits (b : Byte) : lineToken (binaryDigits b) = binaryDigits b := by
  refine lineToken_eq_self (fun h => ?_) fun c hc => ?_
  · obtain h | h := mem_binaryDigits h <;> cases h
  · obtain rfl | rfl := mem_binaryDigits hc <;> rfl

/-- The value of binary digits printed from bits, most significant first. -/
theorem binaryValue_map_bits (f : Nat → Bool) (ks : List Nat) (n : Nat) :
    binaryValue n (ks.map fun k => if f k then '1' else '0') =
      some (ks.foldl (fun n k => 2 * n + (f k).toNat) n) := by
  induction ks generalizing n with
  | nil => rfl
  | cons k ks ih =>
    rw [List.map_cons, List.foldl_cons, ← ih]
    cases f k <;> rfl

/-- The low bits of a number, most significant first, denote it modulo their power of two. -/
theorem foldl_testBit (x m n : Nat) :
    (List.range m).reverse.foldl (fun n k => 2 * n + (x.testBit k).toNat) n = n * 2 ^ m + x % 2 ^ m := by
  induction m generalizing n with
  | zero => simp [Nat.mod_one]
  | succ m ih =>
    rw [List.range_succ, List.reverse_append, List.reverse_singleton, List.singleton_append, List.foldl_cons, ih,
      Nat.toNat_testBit, Nat.mod_pow_succ]
    ring

/-- The eight bits of a byte denote it. -/
theorem foldl_bits (b : Byte) :
    [7, 6, 5, 4, 3, 2, 1, 0].foldl (fun n k => 2 * n + (b.getLsbD k).toNat) 0 = b.toNat := by
  have hbits := foldl_testBit b.toNat 8 0
  rwa [Nat.zero_mul, Nat.zero_add, Nat.mod_eq_of_lt b.isLt] at hbits

/-- The text of a byte stands for that byte. -/
theorem tokenByte_binaryDigits (b : Byte) : tokenByte (binaryDigits b) = some b := by
  have hle : b.toNat ≤ 255 := Nat.le_of_lt_succ b.isLt
  have hvalue : binaryValue 0 (binaryDigits b) = some b.toNat := by
    rw [binaryDigits, binaryValue_map_bits b.getLsbD, foldl_bits]
  simp only [tokenByte, hvalue, if_pos hle]
  exact congrArg some (BitVec.ofNat_toNat ..)

/-- A line that stands for a byte puts it before the bytes of the lines after it. -/
theorem parseLines_binaryDigits {b : Byte} {lines : List (List Char)} {img : List Byte}
    (h : parseLines lines = some img) : parseLines (binaryDigits b :: lines) = some (b :: img) := by
  have hbyte := tokenByte_binaryDigits b
  have htoken := lineToken_binaryDigits b
  have hcons : binaryDigits b = (if b.getLsbD 7 then '1' else '0') :: (binaryDigits b).tail := rfl
  rw [hcons] at hbyte htoken ⊢
  simp only [parseLines, htoken, hbyte, h]

/-- The lines of the text of an image stand for it. -/
theorem parseLines_image (img : List Byte) : parseLines (img.map binaryDigits ++ [[]]) = some img := by
  induction img with
  | nil => rfl
  | cons b img ih => exact parseLines_binaryDigits ih

/-- The text of an image stands for it unless it is too long. -/
theorem parseProgram_imageText (img : List Byte) :
    parseProgram (imageText img) = if img.length > maxImage then none else some img := by
  simp only [parseProgram, splitLines_imageText, parseLines_image]

/-- Loading the text of an image is loading the image, too long or not. -/
theorem hostLoadText_imageText {img : List Byte} {s : State} (hr : s.run = .idle) :
    hostLoadText (imageText img) s = hostLoad img s := by
  by_cases h : img.length > maxImage
  · rw [hostLoadText_none hr ((parseProgram_imageText img).trans (if_pos h)), hostLoad_tooLong hr h]
  · exact hostLoadText_some hr ((parseProgram_imageText img).trans (if_neg h))

end Sys2Proof.Machine

open Sys2Proof Sys2Proof.Machine

/-- Settles O52: the text of an image stands for it (`parseProgram_imageText`), so that loading it is loading the image
(`hostLoadText_imageText`), of which O50's theorem says the rest. -/
theorem programTextReadsBack : Obligations.ProgramTextReadsBack := by
  refine ⟨fun img => ⟨fun hlen => ?_, fun hlen => ?_⟩, fun img s hr => ?_, fun text s => ⟨hostLoadText_none, ?_⟩⟩
  · exact (parseProgram_imageText img).trans (if_neg (Nat.not_lt.mpr hlen))
  · exact (parseProgram_imageText img).trans (if_pos hlen)
  · obtain ⟨htoo, hfits, -⟩ := loadWritesTheWholeImageOrNothing img s
    rw [hostLoadText_imageText hr]
    exact ⟨rfl, hfits hr, htoo hr⟩
  · intro hr t r h
    rw [hostLoadText_refused hr] at h
    cases h

end
